-- ==== Sys2Proof/Config.lean ====
section
/-! DEFINITION. The two arguments the spec leaves open (R3): CMP_CLEARS_FL and EXIT_FAULT. -/

namespace Sys2Proof

/-- The parameter a step reads: R3, R88, decision D3. It is carried in `Machine.State.cfg`, is never written, and every
statement about all states holds for both of its values (log 1). -/
structure Config where
  /-- `CMP_CLEARS_FL`: whether CMP clears FL before it sets its bit (R88). -/
  cmpClearsFl : Bool
  deriving DecidableEq, Repr

/-- The spec's default: CMP ORs its bit into FL and clears nothing (R2, R88, D3). DESIGN CHOICE, unsafe for a run from
reset if the hardware clears (log 1). -/
def Config.default : Config := { cmpClearsFl := false }

/-- The sign of `EXIT_FAULT`: left open (D14), so nothing is known of it (log 9). -/
opaque Config.exitFaultNegative : Bool

/-- One less than the magnitude of `EXIT_FAULT`: left open (D14), so nothing is known of it (log 9). -/
opaque Config.exitFaultMagnitude : Nat

/-- `EXIT_FAULT`: some non-zero integer, and nothing else is said of it (R3, R107, D14). -/
def Config.exitFault : Int :=
  if Config.exitFaultNegative then -(Config.exitFaultMagnitude + 1 : Int) else (Config.exitFaultMagnitude + 1 : Int)

end Sys2Proof
end

