-- ==== Sys2Proof/Word.lean ====
section
/-! DEFINITION. The word types of the LS8 core: bytes, program-counter values and register numbers. -/

namespace Sys2Proof

/-- A byte: a register, a memory cell, an opcode or an operand (00_scope.md section 6, R10, R30). -/
abbrev Byte := BitVec 8

/-- A program-counter value: 9 bits, of which 0..256 are reachable (R13). -/
abbrev PcWord := BitVec 9

/-- A register number 0..7 (R10). -/
abbrev Reg := Fin 8

end Sys2Proof
end

