-- ==== Sys2Proof/Machine/State.lean ====
section
/-! DEFINITION. The state of the LS8 core, the ways a step can stop, and the state after reset (10_state.md). -/

namespace Sys2Proof.Machine

/-- The phase of R18 and R116. -/
inductive Phase where
  | loading
  | running
  | halted
  | faulted
  deriving DecidableEq, Repr

/-- The four faults of the hardware with their data (R100). One is recorded in `State.fault` when a step raises it (R21,
R107); this is a value of the state and no outcome of a step. -/
inductive FaultRecord where
  /-- No entry in the opcode table (R101). -/
  | unknownInstruction (op : Byte)
  /-- An address above 255 (R102). -/
  | addressRange (addr : Nat)
  /-- A register operand above 7 (R103). -/
  | registerIndex (v : Byte)
  /-- The ALU was asked for an operation it lacks; no step raises it (R104). -/
  | unsupportedAluOp
  deriving DecidableEq, Repr

/-- Memory: the cells whose byte is not the one an unlisted address reads as, addresses strictly rising
(`Memory.wf`; R30, log 6). -/
abbrev Memory := List Host.Cell

/-- Everything the spec gives the machine (10_state.md section 1), and `cfg`, the model's own field (log 1). -/
structure State where
  /-- R0..R7; register 7 is the stack pointer (R10, R11). -/
  regs : Vector Byte 8
  /-- The address of the next opcode byte (R13, R14). -/
  pc : PcWord
  /-- The flags register: bit 0 E, bit 1 G, bit 2 L (R15). -/
  fl : Byte
  /-- The running flag (R17). -/
  running : Bool
  /-- The phase (R18). -/
  phase : Phase
  /-- The fault record (R21). -/
  fault : Option FaultRecord
  /-- What PRN has handed to the outside, oldest first (R20). -/
  out : List Byte
  /-- The 256 cells (R30). -/
  mem : Memory
  /-- The parameter CMP_CLEARS_FL, which no step writes (R3). -/
  cfg : Config
  deriving DecidableEq, Repr

/-- Why `step` has no next state. Both are raised by `step` alone, because "in phase Halted or Faulted no step exists" (R70).
Safe: the hardware takes no step there either (log 4). A fault of the hardware is no `Fault`: it is entered, as R107
says, by a next state in phase Faulted (log 3). -/
inductive Fault where
  /-- The phase is Halted: the run has ended in HLT. Raised by `step`; safe. -/
  | stepAfterHalt
  /-- The phase is Faulted: the run has ended in a fault. Raised by `step`; safe. -/
  | stepAfterFault
  deriving DecidableEq, Repr

/-- Refusals. No instruction of this model refuses. -/
inductive Refusal where
  /-- The arm of an instruction that has no meaning yet: raised by `exec` only, and by no arm of this model. Safe. -/
  | notModelled (mnemonic : String)
  deriving DecidableEq, Repr

/-- The machine right after reset (R24, R120), for a value of the parameter. -/
def State.resetWith (cfg : Config) : State where
  regs := #v[0x00#8, 0x00#8, 0x00#8, 0x00#8, 0x00#8, 0x00#8, 0x00#8, 0xF4#8]
  pc := 0#9
  fl := 0x00#8
  running := true
  phase := .loading
  fault := none
  out := []
  mem := []
  cfg := cfg

/-- The machine right after reset (R24, R120), with the parameter at the spec's default (D3, log 1). -/
def State.reset : State := State.resetWith Config.default

end Sys2Proof.Machine
end

