-- ==== Sys2Proof/Machine/Flags.lean ====
section
/-! DEFINITION. The flags register: its bits and the one computation that writes it (R15, R88). -/

namespace Sys2Proof.Machine

/-- E, bit 0: Equal (R15). -/
def flagE (fl : Byte) : Bool := fl.getLsbD 0

/-- G, bit 1: Greater-than (R15). -/
def flagG (fl : Byte) : Bool := fl.getLsbD 1

/-- L, bit 2: Less-than (R15). -/
def flagL (fl : Byte) : Bool := fl.getLsbD 2

/-- FL after CMP of `x` with `y` (R88): equality first, then greater-than, then less-than, each independently setting its
bit; the comparison is unsigned (R89e). `clears` is CMP_CLEARS_FL. -/
def compareFlags (clears : Bool) (fl x y : Byte) : Byte :=
  let base := if clears then 0x00#8 else fl
  let base := if x.toNat = y.toNat then base ||| 0b00000001#8 else base
  let base := if y.toNat < x.toNat then base ||| 0b00000010#8 else base
  if x.toNat < y.toNat then base ||| 0b00000100#8 else base

end Sys2Proof.Machine
end

