-- ==== Sys2Proof/Machine/Ops.lean ====
section
/-! DEFINITION. The shared operations: memory, registers, the stack, output, the program counter, the end of a step, taking
a fault, and the three interfaces (00_scope.md section 7, 20_memory.md, 43_stack.md section 1, 60_exceptions.md). -/

namespace Sys2Proof.Machine

/-! ### Memory as data -/

/-- What an unlisted address reads as: the reset contents of a cell the loader did not write (R24, R45, D6). -/
def Memory.blank : Byte := 0x00#8

/-- The byte of a cell. -/
def Memory.get : Memory → Nat → Byte
  | [], _ => Memory.blank
  | (k, v) :: m, a => if k = a then v else Memory.get m a

/-- Put a cell before the rest of a memory, unless it holds what an unlisted address reads as. -/
def Memory.cons (a : Nat) (v : Byte) (m : Memory) : Memory := if v = Memory.blank then m else (a, v) :: m

/-- Write a cell, keeping the canonical form. -/
def Memory.set : Memory → Nat → Byte → Memory
  | [], a, v => Memory.cons a v []
  | (k, w) :: m, a, v =>
    if a < k then Memory.cons a v ((k, w) :: m)
    else if a = k then Memory.cons a v m
    else (k, w) :: Memory.set m a v

/-- The canonical form from address `lo` up: addresses strictly rising and at most 255, no cell blank. -/
def Memory.wfFrom : Nat → Memory → Bool
  | _, [] => true
  | lo, (k, v) :: m => decide (lo ≤ k) && decide (k ≤ 255) && decide (v ≠ Memory.blank) && Memory.wfFrom (k + 1) m

/-- The canonical form of a memory. -/
def Memory.wf (m : Memory) : Bool := Memory.wfFrom 0 m

/-- Write bytes at ascending addresses from `a`; there is no cell above 255 (R30). -/
def Memory.place : Memory → Nat → List Byte → Memory
  | m, _, [] => m
  | m, a, b :: bs => Memory.place (if a ≤ 255 then Memory.set m a b else m) (a + 1) bs

/-! ### The access primitives of R44 -/

/-- The byte in the cell at an address. -/
def State.cell (s : State) (addr : Nat) : Byte := Memory.get s.mem addr

/-- `mem[addr] <- v`; no other cell changes (R34, R44). -/
def State.setCell (s : State) (addr : Nat) (v : Byte) : State := { s with mem := Memory.set s.mem addr v }

/-- `MemRead(addr, 1)` (R36, R44). -/
def State.memRead (s : State) (addr : Nat) : Except FaultRecord Byte :=
  if 255 < addr then .error (.addressRange addr) else .ok (s.cell addr)

/-- `MemWrite(addr, 1, v)` (R36, R44). -/
def State.memWrite (s : State) (addr : Nat) (v : Byte) : Except FaultRecord State :=
  if 255 < addr then .error (.addressRange addr) else .ok (s.setCell addr v)

/-! ### Registers and the stack pointer -/

/-- `reg[i]` (R10). -/
def State.readReg (s : State) (r : Reg) : Byte := s.regs[r]

/-- `reg[i] <- v` (R10). -/
def State.writeReg (s : State) (r : Reg) (v : Byte) : State := { s with regs := s.regs.set r v }

/-- The register that is the stack pointer (R11). -/
def spReg : Reg := 7

/-- `SP`, another name of register 7 (R11). -/
def State.sp (s : State) : Byte := s.readReg spReg

/-- `SP <- v`, the same cell as register 7 (R11). -/
def State.setSp (s : State) (v : Byte) : State := s.writeReg spReg v

/-! ### The stack discipline of R90 -/

/-- A push: SP is decremented modulo 256, then the byte is stored where it points. The byte is computed from the state after
the decrement, which PUSH R7 shows (R90, R91, D10). -/
def State.pushByte (s : State) (v : State → Byte) : Except FaultRecord State :=
  let t := s.setSp (s.sp - 1)
  t.memWrite t.sp.toNat (v t)

/-- The load of a pop: the byte SP points at (R90). -/
def State.topByte (s : State) : Except FaultRecord Byte := s.memRead s.sp.toNat

/-- The increment of a pop, modulo 256 (R90). -/
def State.dropByte (s : State) : State := s.setSp (s.sp + 1)

/-! ### Output, flags and control -/

/-- `Output(v)` (R20, R82). -/
def State.output (s : State) (v : Byte) : State := { s with out := s.out ++ [v] }

/-- `FL <- v` (R15). -/
def State.setFl (s : State) (v : Byte) : State := { s with fl := v }

/-- `running <- false` (R17, R80). -/
def State.stopRunning (s : State) : State := { s with running := false }

/-- The dispatcher's `PC <- PC + width`, an integer addition into the 9-bit PC (R72). -/
def State.advance (s : State) (width : Nat) : State := { s with pc := BitVec.ofNat 9 (s.pc.toNat + width) }

/-- `PC <- v` of a byte, zero-extended (R94a). -/
def State.jump (s : State) (target : Byte) : State := { s with pc := target.setWidth 9 }

/-! ### The end of a step, and taking a fault -/

/-- R71 step 6, R75, R116: a step that completes leaves phase Running, or Halted when the running flag is false. -/
def State.loopTest (s : State) : State := { s with phase := if s.running then .running else .halted }

/-- Taking a fault (R107): the name and datum are recorded, the phase becomes Faulted, everything else is as before the step.
There is no return from it (R108). -/
def State.raise (s : State) (f : FaultRecord) : State := { s with fault := some f, phase := .faulted }

/-- The end of a handler that started in `s`: the loop test on the state it made, or the fault taken in `s` itself, which
discards whatever the handler wrote (R71, R107a). -/
def State.settle (s : State) : Except FaultRecord State → Host.Outcome State Fault Refusal
  | .ok t => .next t.loopTest
  | .error f => .next (s.raise f)

/-- Why no step is enabled, if none is (R70). -/
def State.stopReason (s : State) : Option Fault :=
  match s.phase with
  | .loading => none
  | .running => none
  | .halted => some .stepAfterHalt
  | .faulted => some .stepAfterFault

/-! ### The three interfaces (R4) -/

/-- The load interface: the start state of a run of the program `p`, for programs of at most 256 bytes (R45, R122, D17). -/
def State.launch (cfg : Config) (p : List Byte) : State :=
  { State.resetWith cfg with mem := Memory.place [] 0 p }

/-- The output interface: one unsigned decimal numeral a line (R20, R82, D16). -/
def State.text (s : State) : List Char := s.out.flatMap fun b => Nat.toDigits 10 b.toNat ++ ['\n']

/-- The termination interface, status: 0 when Halted, EXIT_FAULT when Faulted, none before the end (R107f, R116, R127). -/
def State.exitStatus (s : State) : Option Int :=
  match s.phase with
  | .loading => none
  | .running => none
  | .halted => some 0
  | .faulted => some Config.exitFault

/-- The termination interface, diagnostic: the recorded fault, which names the offending opcode, address or operand
(R21, R101, R107f). -/
def State.diagnostic (s : State) : Option FaultRecord :=
  match s.phase with
  | .loading => none
  | .running => none
  | .halted => none
  | .faulted => s.fault

end Sys2Proof.Machine
end

