-- ==== Sys2Proof/Machine/Operands.lean ====
section
/-! DEFINITION. Operand forms: a register operand (R53). LDI's immediate is its byte (R54); the implied stack pointer is
`State.sp` (R55). -/

namespace Sys2Proof.Machine

/-- R71 step 4b: the register an operand byte names, or the fault RegisterIndex (R53, R103). The decoder refuses such an
operand already; this makes the meanings total (log 5). -/
def regOperand (a : Byte) : Except FaultRecord Reg :=
  if h : a.toNat < 8 then .ok ⟨a.toNat, h⟩ else .error (.registerIndex a)

/-- Run a handler on one register operand. -/
def State.withReg (s : State) (a : Byte) (handler : Reg → Except FaultRecord State) : Host.Outcome State Fault Refusal :=
  s.settle (regOperand a >>= handler)

/-- Run a handler on two register operands, the first checked first (R106). -/
def State.withRegs (s : State) (a b : Byte) (handler : Reg → Reg → Except FaultRecord State) :
    Host.Outcome State Fault Refusal :=
  s.settle (regOperand a >>= fun ra => regOperand b >>= fun rb => handler ra rb)

end Sys2Proof.Machine
end

