-- ==== Sys2Proof/Machine/Alu.lean ====
section
/-! DEFINITION. The ALU and ADD, MUL, CMP (42_alu.md). -/

namespace Sys2Proof.Machine

/-- The ALU's discriminant: its three operations, and any other (R85). -/
inductive AluOp where
  | add
  | mul
  | cmp
  | other
  deriving DecidableEq, Repr

/-- The ALU (R85, R89): exact unsigned arithmetic, then the low 8 bits; CMP writes FL only. Any other operation is the
fault of R104, which no instruction can reach. -/
def State.alu (s : State) (op : AluOp) (ra rb : Reg) : Except FaultRecord State :=
  let x := s.readReg ra
  let y := s.readReg rb
  match op with
  | .add => .ok (s.writeReg ra (BitVec.ofNat 8 (x.toNat + y.toNat)))
  | .mul => .ok (s.writeReg ra (BitVec.ofNat 8 (x.toNat * y.toNat)))
  | .cmp => .ok (s.setFl (compareFlags s.cfg.cmpClearsFl s.fl x y))
  | .other => .error .unsupportedAluOp

/-- ADD (R86): `reg[a] <- (reg[a] + reg[b]) mod 256`. -/
def execAdd (a b : Byte) (s : State) : Host.Outcome State Fault Refusal :=
  s.withRegs a b fun ra rb => (s.alu .add ra rb).map (State.advance · 3)

/-- MUL (R87): `reg[a] <- (reg[a] * reg[b]) mod 256`. -/
def execMul (a b : Byte) (s : State) : Host.Outcome State Fault Refusal :=
  s.withRegs a b fun ra rb => (s.alu .mul ra rb).map (State.advance · 3)

/-- CMP (R88): FL after comparing `reg[a]` with `reg[b]`. -/
def execCmp (a b : Byte) (s : State) : Host.Outcome State Fault Refusal :=
  s.withRegs a b fun ra rb => (s.alu .cmp ra rb).map (State.advance · 3)

end Sys2Proof.Machine
end

