-- ==== Sys2Proof/Machine/Basic.lean ====
section
/-! DEFINITION. HLT, LDI, PRN (41_basic.md). -/

namespace Sys2Proof.Machine

/-- HLT (R80): the running flag is cleared; PC still advances (R72). -/
def execHlt (s : State) : Host.Outcome State Fault Refusal := s.settle (.ok (s.stopRunning.advance 1))

/-- LDI (R81): `reg[a] <- imm`. -/
def execLdi (a imm : Byte) (s : State) : Host.Outcome State Fault Refusal :=
  s.withReg a fun ra => .ok ((s.writeReg ra imm).advance 3)

/-- PRN (R82): `Output(reg[a])`. -/
def execPrn (a : Byte) (s : State) : Host.Outcome State Fault Refusal :=
  s.withReg a fun ra => .ok ((s.output (s.readReg ra)).advance 2)

end Sys2Proof.Machine
end

