-- ==== Sys2Proof/Machine/Control.lean ====
section
/-! DEFINITION. CALL, RET, JMP, JEQ, JNE, which set PC themselves (44_control.md, R57, R72). -/

namespace Sys2Proof.Machine

/-- CALL's return address, checked as an address before anything is written (R95, D9). -/
def State.returnAddress (s : State) : Except FaultRecord Byte :=
  if 255 < s.pc.toNat + 2 then .error (.addressRange (s.pc.toNat + 2)) else .ok (BitVec.ofNat 8 (s.pc.toNat + 2))

/-- CALL (R95): the return address is pushed, then `PC <- reg[a]`, with `reg[a]` read after the push (D10). -/
def execCall (a : Byte) (s : State) : Host.Outcome State Fault Refusal :=
  s.withReg a fun ra =>
    s.returnAddress >>= fun ret => (s.pushByte fun _ => ret).map fun t => t.jump (t.readReg ra)

/-- RET (R96): `PC <- mem[SP]`, then SP is incremented. -/
def execRet (s : State) : Host.Outcome State Fault Refusal :=
  s.settle (s.topByte.map fun v => (s.jump v).dropByte)

/-- JMP (R97): `PC <- reg[a]`. -/
def execJmp (a : Byte) (s : State) : Host.Outcome State Fault Refusal :=
  s.withReg a fun ra => .ok (s.jump (s.readReg ra))

/-- JEQ (R98): `PC <- reg[a]` if E is 1, else `PC <- PC + 2`. -/
def execJeq (a : Byte) (s : State) : Host.Outcome State Fault Refusal :=
  s.withReg a fun ra => .ok (if flagE s.fl then s.jump (s.readReg ra) else s.advance 2)

/-- JNE (R99): `PC <- reg[a]` if E is 0, else `PC <- PC + 2`. -/
def execJne (a : Byte) (s : State) : Host.Outcome State Fault Refusal :=
  s.withReg a fun ra => .ok (if flagE s.fl then s.advance 2 else s.jump (s.readReg ra))

end Sys2Proof.Machine
end

