-- ==== Sys2Proof/Machine/Stack.lean ====
section
/-! DEFINITION. PUSH and POP (43_stack.md). -/

namespace Sys2Proof.Machine

/-- PUSH (R91): SP is decremented, then `mem[SP] <- reg[a]`, with `reg[a]` read after the decrement (D10). -/
def execPush (a : Byte) (s : State) : Host.Outcome State Fault Refusal :=
  s.withReg a fun ra => (s.pushByte fun t => t.readReg ra).map (State.advance · 2)

/-- POP (R92): `reg[a] <- mem[SP]`, then SP is incremented; with `a = 7` the increment is of the loaded byte (D10). -/
def execPop (a : Byte) (s : State) : Host.Outcome State Fault Refusal :=
  s.withReg a fun ra => s.topByte.map fun v => ((s.writeReg ra v).dropByte).advance 2

end Sys2Proof.Machine
end

