-- ==== Sys2Proof/Syntax.lean ====
section
/-! DEFINITION. The instructions of the LS8 core, one constructor per row of spec/opcode_table.json. -/

namespace Sys2Proof

/-- An instruction with its operand bytes as they stand in memory: whole, unsigned, with no field inside (R52).
Which operand values are legal is `Instr.WellFormed` (R53, R54). The rows are in the order of R56's table. -/
inductive Instr where
  /-- `HLT` (R80). -/
  | hlt
  /-- `LDI Ra, imm` (R81). -/
  | ldi (a imm : Byte)
  /-- `PRN Ra` (R82). -/
  | prn (a : Byte)
  /-- `ADD Ra, Rb` (R86). -/
  | add (a b : Byte)
  /-- `MUL Ra, Rb` (R87). -/
  | mul (a b : Byte)
  /-- `PUSH Ra` (R91). -/
  | push (a : Byte)
  /-- `POP Ra` (R92). -/
  | pop (a : Byte)
  /-- `CALL Ra` (R95). -/
  | call (a : Byte)
  /-- `RET` (R96). -/
  | ret
  /-- `CMP Ra, Rb` (R88). -/
  | cmp (a b : Byte)
  /-- `JMP Ra` (R97). -/
  | jmp (a : Byte)
  /-- `JEQ Ra` (R98). -/
  | jeq (a : Byte)
  /-- `JNE Ra` (R99). -/
  | jne (a : Byte)
  deriving DecidableEq, Repr

end Sys2Proof
end

