-- ==== Sys2Proof/WellFormed.lean ====
section
/-! DEFINITION. Which instructions are well formed: every register operand is a register number (R53); LDI's immediate is
any byte (R54). -/

namespace Sys2Proof

/-- A register-index operand is legal from 0 to 7 (R53). -/
def legalRegister (a : Byte) : Bool := a.toNat < 8

/-- Every operand the instruction uses as a register index is legal (R53, R103). -/
def Instr.WellFormed : Instr → Bool
  | .hlt => true
  | .ldi a _ => legalRegister a
  | .prn a => legalRegister a
  | .add a b => legalRegister a && legalRegister b
  | .mul a b => legalRegister a && legalRegister b
  | .push a => legalRegister a
  | .pop a => legalRegister a
  | .call a => legalRegister a
  | .ret => true
  | .cmp a b => legalRegister a && legalRegister b
  | .jmp a => legalRegister a
  | .jeq a => legalRegister a
  | .jne a => legalRegister a

end Sys2Proof
end

