-- ==== Sys2Proof/Decode.lean ====
section
/-! DEFINITION. Decoding: from the bytes at the program counter to an instruction, or to a named refusal; and the encoder,
from the same table (30_encoding.md, R71 steps 2 to 4b). -/

namespace Sys2Proof

/-- Why a sequence of bytes is no instruction, in the order of R106. -/
inductive DecodeError where
  /-- Byte number `k` of the instruction (0 the opcode, 1 and 2 the operands) is not there. -/
  | missingByte (k : Nat)
  /-- The first byte is none of the thirteen opcodes (R58). -/
  | unknownOpcode (op : Byte)
  /-- A register-index operand is above 7 (R53); of two, the first is named (R106). -/
  | badRegister (v : Byte)
  deriving DecidableEq, Repr

/-- The three formats of R51, each with the instruction its operand bytes make. -/
inductive Shape where
  | f0 (i : Instr)
  | f1 (mk : Byte → Instr)
  | f2 (mk : Byte → Byte → Instr)

/-- The opcode table (R19, R56). HLT, LDI, PRN and ADD have REPO-SPEC's values; the other nine are decision D2's (log 7). -/
def opcodeTable : List (Byte × Shape) :=
  [(0x01#8, .f0 .hlt), (0x82#8, .f2 .ldi), (0x47#8, .f1 .prn), (0xA0#8, .f2 .add), (0xA2#8, .f2 .mul),
   (0x45#8, .f1 .push), (0x46#8, .f1 .pop), (0x50#8, .f1 .call), (0x11#8, .f0 .ret), (0xA7#8, .f2 .cmp),
   (0x54#8, .f1 .jmp), (0x55#8, .f1 .jeq), (0x56#8, .f1 .jne)]

/-- The first row of a table with this opcode, matched on all eight bits (R56). -/
def lookupIn : List (Byte × Shape) → Byte → Option Shape
  | [], _ => none
  | (k, sh) :: rows, op => if k = op then some sh else lookupIn rows op

/-- R71 step 3. -/
def lookup (op : Byte) : Option Shape := lookupIn opcodeTable op

/-- The operand count in an opcode's top two bits (R50, R71 step 2). -/
def operandCount (op : Byte) : Nat := (op >>> 6).toNat

/-- The first operand, in operand order, that is used as a register index and is above 7 (R71 step 4b, R103, R106).
LDI's second operand is an immediate and is never checked (R54). -/
def Instr.badRegister : Instr → Option Byte
  | .hlt => none
  | .ret => none
  | .ldi a _ => if 7 < a.toNat then some a else none
  | .prn a => if 7 < a.toNat then some a else none
  | .push a => if 7 < a.toNat then some a else none
  | .pop a => if 7 < a.toNat then some a else none
  | .call a => if 7 < a.toNat then some a else none
  | .jmp a => if 7 < a.toNat then some a else none
  | .jeq a => if 7 < a.toNat then some a else none
  | .jne a => if 7 < a.toNat then some a else none
  | .add a b => if 7 < a.toNat then some a else if 7 < b.toNat then some b else none
  | .mul a b => if 7 < a.toNat then some a else if 7 < b.toNat then some b else none
  | .cmp a b => if 7 < a.toNat then some a else if 7 < b.toNat then some b else none

/-- R71 step 4b on an instruction whose bytes are all there; `rest` is what follows it. -/
def checkOperands (i : Instr) (rest : List Byte) : Except DecodeError (Instr × List Byte) :=
  match i.badRegister with
  | some v => .error (.badRegister v)
  | none => .ok (i, rest)

/-- R71 steps 4a and 4b: the operands a format takes, at ascending addresses (R32, R51, R52). -/
def takeOperands : Shape → List Byte → Except DecodeError (Instr × List Byte)
  | .f0 i, rest => checkOperands i rest
  | .f1 _, [] => .error (.missingByte 1)
  | .f1 mk, a :: rest => checkOperands (mk a) rest
  | .f2 _, [] => .error (.missingByte 1)
  | .f2 _, [_] => .error (.missingByte 2)
  | .f2 mk, a :: b :: rest => checkOperands (mk a b) rest

/-- The decoder, total on any bytes: the instruction they begin with and what follows it, or why there is none.
The lookup comes before any operand is taken, so an opcode with top bits 11 never asks for a fourth byte (R59). -/
def decode : List Byte → Except DecodeError (Instr × List Byte)
  | [] => .error (.missingByte 0)
  | op :: rest =>
    match lookup op with
    | none => .error (.unknownOpcode op)
    | some sh => takeOperands sh rest

/-- The opcode byte of R56's table. -/
def Instr.opcode : Instr → Byte
  | .hlt => 0x01#8
  | .ldi _ _ => 0x82#8
  | .prn _ => 0x47#8
  | .add _ _ => 0xA0#8
  | .mul _ _ => 0xA2#8
  | .push _ => 0x45#8
  | .pop _ => 0x46#8
  | .call _ => 0x50#8
  | .ret => 0x11#8
  | .cmp _ _ => 0xA7#8
  | .jmp _ => 0x54#8
  | .jeq _ => 0x55#8
  | .jne _ => 0x56#8

/-- The operand bytes, in address order (R51). -/
def Instr.operands : Instr → List Byte
  | .hlt => []
  | .ret => []
  | .prn a => [a]
  | .push a => [a]
  | .pop a => [a]
  | .call a => [a]
  | .jmp a => [a]
  | .jeq a => [a]
  | .jne a => [a]
  | .ldi a b => [a, b]
  | .add a b => [a, b]
  | .mul a b => [a, b]
  | .cmp a b => [a, b]

/-- The bytes of an instruction, in address order (R51, R60's table). -/
def encode (i : Instr) : List Byte := i.opcode :: i.operands

/-- The length of an instruction in bytes, as its opcode's top two bits give it (R50). -/
def Instr.width (i : Instr) : Nat := 1 + operandCount i.opcode

/-- The three bytes that a table word stands for, opcode first: bits 7..0 the first byte, 15..8 the second, 23..16 the
third; every bit at or above `nbits` is 0. -/
def tableWordBytes (nbits w : Nat) : List Byte :=
  [BitVec.ofNat 8 (w % 2 ^ nbits), BitVec.ofNat 8 (w % 2 ^ nbits / 2 ^ 8), BitVec.ofNat 8 (w % 2 ^ nbits / 2 ^ 16)]

/-- What the decoder reads from a table word. -/
def decodeTableWord (nbits w : Nat) : Option Instr :=
  match decode (tableWordBytes nbits w) with
  | .ok (i, _) => some i
  | .error _ => none

end Sys2Proof
end

