-- ==== Sys2Proof/Machine/Fetch.lean ====
section
/-! DEFINITION. Fetching: R71 steps 1 to 4b on the memory at the program counter. -/

namespace Sys2Proof.Machine

/-- The bytes of the cells from `addr` up, at most `n`, as far as memory reaches (R30, R32). -/
def State.bytesFrom (s : State) (addr : Nat) : Nat → List Byte
  | 0 => []
  | n + 1 =>
    match s.memRead addr with
    | .ok b => b :: s.bytesFrom (addr + 1) n
    | .error _ => []

/-- The bytes an instruction at PC can have: three at most (R50). Reading has no side effect (R34), so that a shorter
instruction leaves the rest unread cannot be seen. -/
def State.fetchBytes (s : State) : List Byte := s.bytesFrom s.pc.toNat 3

/-- The hardware's fault for what the decoder could not read. A byte that is not there lies past the end of memory: its
address is PC plus its number (R36, R71). -/
def faultOf (pc : Nat) : DecodeError → FaultRecord
  | .missingByte k => .addressRange (pc + k)
  | .unknownOpcode op => .unknownInstruction op
  | .badRegister v => .registerIndex v

/-- The instruction at PC, or the fault of fetching it (R71, R106). -/
def State.fetch (s : State) : Except FaultRecord Instr :=
  match decode s.fetchBytes with
  | .ok (i, _) => .ok i
  | .error e => .error (faultOf s.pc.toNat e)

end Sys2Proof.Machine
end

