-- ==== Sys2Proof/Machine/Step.lean ====
section
/-! DEFINITION. One step: R70, R71. -/

namespace Sys2Proof.Machine

/-- One step (R71): where one is enabled (R70), the instruction at PC is fetched and executed; a fault of fetching it is
taken (R107). -/
def step (s : State) : Host.Outcome State Fault Refusal :=
  match s.stopReason with
  | some r => .fault r
  | none =>
    match s.fetch with
    | .error f => .next (s.raise f)
    | .ok i => exec i s

/-- `s` with the bytes of a table word stored where `step` fetches next: from PC up, as far as memory reaches (log 8). -/
def State.withFetchWord (s : State) (nbits w : Nat) : State :=
  { s with mem := Memory.place s.mem s.pc.toNat (tableWordBytes nbits w) }

end Sys2Proof.Machine
end

