-- ==== Sys2Proof/Safety.lean ====
section
/-! DEFINITION. What claims about runs are stated in: an enabled state, a safe state, and the invariant of the machine. -/

namespace Sys2Proof.Machine

/-- A step is enabled (R70). -/
def State.Enabled (s : State) : Prop := s.phase = .loading ∨ s.phase = .running

/-- No fault has been taken: the run has not ended in phase Faulted (R127). -/
def State.Safe (s : State) : Prop := s.phase ≠ .faulted

/-- What holds of the machine in every state of a run. -/
structure State.Inv (s : State) : Prop where
  /-- PC is an address or the one value past the end (R13, R73). -/
  pc_le : s.pc.toNat ≤ 256
  /-- Bits 7:3 of FL are 0 (R15). -/
  fl_low : s.fl.toNat < 8
  /-- Phase Halted exactly when the running flag is false (R18). -/
  halted_iff : s.phase = .halted ↔ s.running = false
  /-- Phase Faulted exactly when a fault is recorded (R21, R107). -/
  faulted_iff : s.phase = .faulted ↔ s.fault ≠ none
  /-- Memory is in its canonical form, with cells 0..255 only (R30, log 6). -/
  mem_wf : Memory.wf s.mem = true

/-- What FL can hold when CMP clears it: nothing, or exactly one of E, G, L (R88). -/
def State.FlOneHot (s : State) : Prop := s.fl = 0x00#8 ∨ s.fl = 0x01#8 ∨ s.fl = 0x02#8 ∨ s.fl = 0x04#8

end Sys2Proof.Machine
end

