-- ==== Sys2Proof/Certificates/Slice0/Obligations.lean ====
section
/-! DEFINITION. The statements for the provers, from the numbered rules of spec/. -/

open Sys2Proof Sys2Proof.Machine

namespace Sys2Proof.Claims

/-! ### Words the statements use -/

/-- The thirteen opcode bytes, in the order of R56's table. -/
def thirteenOpcodes : List Byte :=
  [0x01#8, 0x82#8, 0x47#8, 0xA0#8, 0xA2#8, 0x45#8, 0x46#8, 0x50#8, 0x11#8, 0xA7#8, 0x54#8, 0x55#8, 0x56#8]

/-- The opcode byte at PC. -/
def opcodeAt (s : State) : Byte := s.cell s.pc.toNat

/-- The operand byte `a` of the instruction at PC. -/
def operandA (s : State) : Byte := s.cell (s.pc.toNat + 1)

/-- The operand byte `b` of the instruction at PC. -/
def operandB (s : State) : Byte := s.cell (s.pc.toNat + 2)

/-- Value of the opcode byte's top two bits (R50). -/
def topTwoBits (op : Byte) : Nat := (op >>> 6).toNat

/-- With this opcode at PC and its `n` operands reaching past address 255, the step takes AddressRange(256). -/
def OperandFetchFaults (op : Byte) (n : Nat) : Prop :=
  ∀ s : State, s.Enabled → s.pc.toNat ≤ 255 → opcodeAt s = op → 255 < s.pc.toNat + n →
    step s = .next (s.raise (.addressRange 256))

/-- The fault RegisterIndex of an operand above 7, taken in place of the instruction. -/
def RefusesRegister (i : Instr) (v : Byte) : Prop := ∀ s : State, exec i s = .next (s.raise (.registerIndex v))

/-- A change made to the next state of an outcome. -/
def onNext (g : State → State) : Host.Outcome State Fault Refusal → Host.Outcome State Fault Refusal
  | .next t => .next (g t)
  | .fault r => .fault r
  | .refused r => .refused r

/-- The registers an instruction may read: the column "registers read" of R12's table, given FL. -/
def registersRead (fl : Byte) : Instr → List Nat
  | .hlt => []
  | .ldi _ _ => []
  | .prn a => [a.toNat]
  | .add a b => [a.toNat, b.toNat]
  | .mul a b => [a.toNat, b.toNat]
  | .cmp a b => [a.toNat, b.toNat]
  | .push a => [7, a.toNat]
  | .pop _ => [7]
  | .call a => [7, a.toNat]
  | .ret => [7]
  | .jmp a => [a.toNat]
  | .jeq a => if fl.getLsbD 0 then [a.toNat] else []
  | .jne a => if fl.getLsbD 0 then [] else [a.toNat]

/-- The registers an instruction may write: the column "registers written" of R12's table. -/
def registersWritten : Instr → List Nat
  | .hlt => []
  | .ldi a _ => [a.toNat]
  | .prn _ => []
  | .add a _ => [a.toNat]
  | .mul a _ => [a.toNat]
  | .cmp _ _ => []
  | .push _ => [7]
  | .pop a => [a.toNat, 7]
  | .call _ => [7]
  | .ret => [7]
  | .jmp _ => []
  | .jeq _ => []
  | .jne _ => []

/-- The eight instructions that leave PC to the dispatcher (R57, R72). -/
def advancedByDispatcher : Instr → Bool
  | .hlt => true
  | .ldi _ _ => true
  | .prn _ => true
  | .add _ _ => true
  | .mul _ _ => true
  | .cmp _ _ => true
  | .push _ => true
  | .pop _ => true
  | .call _ => false
  | .ret => false
  | .jmp _ => false
  | .jeq _ => false
  | .jne _ => false

end Sys2Proof.Claims

open Sys2Proof.Claims

/-! ### Encoding and decoding -/

/-- 30_encoding.md sections 1 to 3 (R50 to R56): decoding an instruction's bytes, whatever follows them, gives the
instruction back exactly when its register operands are legal, and else names the first illegal one (R53, R106). -/
def Obligations.DecodeOfEncodeIsInstruction : Prop :=
  ∀ (i : Instr) (rest : List Byte),
    (i.WellFormed = true → decode (encode i ++ rest) = .ok (i, rest)) ∧
    (i.WellFormed = false → ∃ v, i.badRegister = some v ∧ 7 < v.toNat ∧ v ∈ i.operands ∧
      decode (encode i ++ rest) = .error (.badRegister v))

/-- 30_encoding.md sections 1 to 4, the other direction: where bytes decode, the instruction is well formed and the bytes are
its encoding followed by the rest. -/
def Obligations.DecodedBytesAreTheEncoding : Prop :=
  ∀ (bs : List Byte) (i : Instr) (rest : List Byte),
    decode bs = .ok (i, rest) → i.WellFormed = true ∧ bs = encode i ++ rest

/-- R50: the length is 1 plus the value of the opcode's top two bits, 1 to 3 bytes, and the decoder takes exactly that many
bytes, of any bytes it decodes. -/
def Obligations.LengthFromTopTwoOpcodeBits : Prop :=
  (∀ i : Instr, (encode i).head? = some i.opcode ∧ (encode i).length = 1 + topTwoBits i.opcode ∧
    (encode i).length ≤ 3) ∧
  (∀ (op : Byte) (bs : List Byte) (i : Instr) (rest : List Byte), decode (op :: bs) = .ok (i, rest) →
    (op :: bs).length = (1 + topTwoBits op) + rest.length)

/-- R58: every byte but the thirteen is an unknown instruction, 243 of them, whatever follows it; fetching one raises the
fault, which identifies it, ends the run with a non-zero exit status, and is followed by no step. -/
def Obligations.OtherOpcodesAreUnknown : Prop :=
  (∀ (op : Byte) (rest : List Byte), op ∉ thirteenOpcodes → decode (op :: rest) = .error (.unknownOpcode op)) ∧
  (∀ op : Byte, op ∈ thirteenOpcodes → ∃ i : Instr, i.WellFormed = true ∧ i.opcode = op) ∧
  (((List.range 256).map (BitVec.ofNat 8)).filter fun op => !thirteenOpcodes.contains op).length = 243 ∧
  (∀ s : State, s.Enabled → s.pc.toNat ≤ 255 → opcodeAt s ∉ thirteenOpcodes →
    step s = .next (s.raise (.unknownInstruction (opcodeAt s)))) ∧
  (∀ (s t : State) (op : Byte), t = s.raise (.unknownInstruction op) →
    t.diagnostic = some (.unknownInstruction op) ∧ (∃ n : Int, t.exitStatus = some n ∧ n ≠ 0) ∧ ∀ u, step t ≠ .next u)

/-- A sanity check on words written out from R51, R56 and R60's table: one of each format and of each family. -/
def Obligations.WrittenOutWordsDecode : Prop :=
  decode [0b00000001#8] = .ok (.hlt, []) ∧
  decode [0b10000010#8, 0b00000000#8, 0b00001000#8] = .ok (.ldi 0#8 8#8, []) ∧
  decode [0b01000111#8, 0b00000111#8] = .ok (.prn 7#8, []) ∧
  decode [0b10100000#8, 0b00000000#8, 0b00000001#8] = .ok (.add 0#8 1#8, []) ∧
  decode [0b10100111#8, 0b00000011#8, 0b00000010#8] = .ok (.cmp 3#8 2#8, []) ∧
  decode [0b01000101#8, 0b00000110#8] = .ok (.push 6#8, []) ∧
  decode [0b01010000#8, 0b00000001#8, 0b00000001#8] = .ok (.call 1#8, [0b00000001#8]) ∧
  decode [0b00010001#8] = .ok (.ret, []) ∧
  decode [0b01010110#8, 0b00000011#8] = .ok (.jne 3#8, []) ∧
  decode [0b10100000#8, 0b00001100#8, 0b00001001#8] = .error (.badRegister 12#8) ∧
  decode [0b11000001#8] = .error (.unknownOpcode 0xC1#8)

/-! ### The step -/

/-- 40_cycle.md section 2: an enabled step is `exec` of the instruction that the bytes at PC decode to, and nothing is added
around it; where they decode to none, the step takes the fault of fetching it. That the decoder is given up to three bytes,
whatever the opcode, is the model's choice (log 11). -/
def Obligations.StepRunsDecodedInstruction : Prop :=
  ∀ s : State, s.Enabled →
    (∀ (i : Instr) (rest : List Byte), decode s.fetchBytes = .ok (i, rest) → step s = exec i s) ∧
    (∀ e : DecodeError, decode s.fetchBytes = .error e → step s = .next (s.raise (faultOf s.pc.toNat e)))

/-- The model's choice (log 11): its fetch takes the bytes at PC, PC + 1 and PC + 2 at once, as far as memory reaches, where
40_cycle.md section 2 reads the opcode and then exactly the operands the opcode calls for. The bytes themselves are those of
the cells, at ascending addresses, as 20_memory.md sections 2 and 3 say. -/
def Obligations.FetchReadsCellsAtPc : Prop :=
  ∀ (s : State) (k : Nat),
    s.fetchBytes[k]? = if k < 3 ∧ s.pc.toNat + k ≤ 255 then some (s.cell (s.pc.toNat + k)) else none

/-- 40_cycle.md section 2: where the cells at PC hold the encoding of a well-formed instruction, wherever it lies in memory,
an enabled step is `exec` of it. -/
def Obligations.StepRunsStoredEncoding : Prop :=
  ∀ (s : State) (i : Instr), s.Enabled → i.WellFormed = true →
    (∀ (k : Nat) (hk : k < (encode i).length), s.pc.toNat + k ≤ 255 ∧ s.cell (s.pc.toNat + k) = (encode i)[k]) →
    step s = exec i s

/-- R70: a step exists exactly in phases Loading and Running, which on the machine's own states is when it is running and
has no fault; and no step leaves it in phase Loading. -/
def Obligations.StepEnabledInLoadingAndRunning : Prop :=
  ∀ s : State,
    ((∃ t, step s = .next t) ↔ s.phase = .loading ∨ s.phase = .running) ∧
    (s.Inv → ((s.phase = .loading ∨ s.phase = .running) ↔ s.running = true ∧ s.fault = none)) ∧
    (∀ t, step s = .next t → t.phase ≠ .loading)

/-- The model's choice (log 4): where R70 has no step, the model's step answers a fault of its own that names the phase. -/
def Obligations.StepAfterTheEndStops : Prop :=
  ∀ s : State, (s.phase = .halted → step s = .fault .stepAfterHalt) ∧
    (s.phase = .faulted → step s = .fault .stepAfterFault)

/-- 60_exceptions.md section 3: of several faults the first in this order is taken, and after a fault there is no step and so
no second one. That the lookup comes before the operands is REPO-SPEC's; "the rest of the order is this spec's" (decision
D21). -/
def Obligations.FaultPriority : Prop :=
  ∀ s : State, s.Enabled →
    (255 < s.pc.toNat → step s = .next (s.raise (.addressRange s.pc.toNat))) ∧
    (s.pc.toNat ≤ 255 → opcodeAt s ∉ thirteenOpcodes →
      step s = .next (s.raise (.unknownInstruction (opcodeAt s)))) ∧
    (s.pc.toNat ≤ 255 → opcodeAt s ∈ thirteenOpcodes → 1 ≤ topTwoBits (opcodeAt s) → 255 < s.pc.toNat + 1 →
      step s = .next (s.raise (.addressRange (s.pc.toNat + 1)))) ∧
    (s.pc.toNat + 1 ≤ 255 → opcodeAt s ∈ thirteenOpcodes → topTwoBits (opcodeAt s) = 2 → 255 < s.pc.toNat + 2 →
      step s = .next (s.raise (.addressRange (s.pc.toNat + 2)))) ∧
    (s.pc.toNat + topTwoBits (opcodeAt s) ≤ 255 → opcodeAt s ∈ thirteenOpcodes → 1 ≤ topTwoBits (opcodeAt s) →
      7 < (operandA s).toNat → step s = .next (s.raise (.registerIndex (operandA s)))) ∧
    (s.pc.toNat + 2 ≤ 255 → opcodeAt s ∈ thirteenOpcodes → topTwoBits (opcodeAt s) = 2 → opcodeAt s ≠ 0x82#8 →
      (operandA s).toNat ≤ 7 → 7 < (operandB s).toNat → step s = .next (s.raise (.registerIndex (operandB s)))) ∧
    (s.pc.toNat + 1 ≤ 255 → opcodeAt s = 0x50#8 → (operandA s).toNat ≤ 7 → 255 < s.pc.toNat + 2 →
      step s = .next (s.raise (.addressRange (s.pc.toNat + 2)))) ∧
    (∀ (f : FaultRecord) (t : State), step s = .next (s.raise f) → step (s.raise f) ≠ .next t)

/-! ### Faults -/

/-- R101: UnknownInstruction is raised by a step exactly when the byte at PC has no entry in the opcode table; its datum is
that byte, which the termination interface reports; nothing executes after it. -/
def Obligations.UnknownInstructionFault : Prop :=
  ∀ (s : State) (op : Byte), s.Enabled →
    (step s = .next (s.raise (.unknownInstruction op)) ↔
      s.pc.toNat ≤ 255 ∧ opcodeAt s = op ∧ op ∉ thirteenOpcodes) ∧
    (s.raise (.unknownInstruction op)).diagnostic = some (.unknownInstruction op) ∧
    ∀ t, step (s.raise (.unknownInstruction op)) ≠ .next t

/-- 60_exceptions.md section 1, under the priority of section 3: from a PC in range, AddressRange is raised exactly in these
cases, and the address is always 256. The fault is "this spec's conservative reading" of an out-of-range access (decisions D7
and D9). -/
def Obligations.AddressRangeExactCases : Prop :=
  ∀ (s : State) (ad : Nat), s.Enabled → s.pc.toNat ≤ 256 →
    (step s = .next (s.raise (.addressRange ad)) ↔ ad = 256 ∧
      (s.pc.toNat = 256 ∨
       (s.pc.toNat = 255 ∧ opcodeAt s ∈ thirteenOpcodes ∧ 1 ≤ topTwoBits (opcodeAt s)) ∨
       (s.pc.toNat = 254 ∧ opcodeAt s ∈ thirteenOpcodes ∧ topTwoBits (opcodeAt s) = 2) ∨
       (s.pc.toNat = 254 ∧ opcodeAt s = 0x50#8 ∧ (operandA s).toNat ≤ 7)))

/-- 60_exceptions.md section 1: which operands are checked. `a` of every instruction that has one, `b` of ADD, MUL and CMP,
never `b` of LDI. The fault "is this spec's conservative reading" of a register index above 7 (decision D8). -/
def Obligations.RegisterOperandChecks : Prop :=
  (∀ a b : Byte, 7 < a.toNat →
    RefusesRegister (.ldi a b) a ∧ RefusesRegister (.prn a) a ∧ RefusesRegister (.add a b) a ∧
    RefusesRegister (.mul a b) a ∧ RefusesRegister (.cmp a b) a ∧ RefusesRegister (.push a) a ∧
    RefusesRegister (.pop a) a ∧ RefusesRegister (.call a) a ∧ RefusesRegister (.jmp a) a ∧
    RefusesRegister (.jeq a) a ∧ RefusesRegister (.jne a) a) ∧
  (∀ a b : Byte, a.toNat ≤ 7 → 7 < b.toNat →
    RefusesRegister (.add a b) b ∧ RefusesRegister (.mul a b) b ∧ RefusesRegister (.cmp a b) b) ∧
  (∀ (a b : Byte) (s : State), a.toNat ≤ 7 → ∃ t, exec (.ldi a b) s = .next t ∧ t.phase ≠ .faulted)

/-- R104: the ALU refuses any fourth operation, no step ever records that fault, and it would be terminal if one did. -/
def Obligations.UnsupportedAluOpNeverRaised : Prop :=
  (∀ (s : State) (ra rb : Reg), s.alu .other ra rb = .error .unsupportedAluOp) ∧
  (∀ s t : State, step s = .next t → t.fault = some .unsupportedAluOp → s.fault = some .unsupportedAluOp) ∧
  (∀ s u : State, step (s.raise .unsupportedAluOp) ≠ .next u)

/-- R107: what a step that ends in phase Faulted leaves: everything but the fault record and the phase as before the step,
PC at the faulting opcode, a diagnostic, a non-zero exit status, and no further step. -/
def Obligations.FaultEntryIsPrecise : Prop :=
  ∀ s t : State, step s = .next t → t.phase = .faulted →
    t.regs = s.regs ∧ t.mem = s.mem ∧ t.pc = s.pc ∧ t.fl = s.fl ∧ t.running = s.running ∧ t.out = s.out ∧
    t.cfg = s.cfg ∧
    (∃ f, t.fault = some f ∧ t.diagnostic = some f) ∧
    (∃ n : Int, t.exitStatus = some n ∧ n ≠ 0) ∧
    (∀ u, step t ≠ .next u)

/-! ### The instructions: encoding, effect, faults -/

/-- R80. HLT alone leads to phase Halted, with exit status 0, and no step follows it. -/
def Obligations.HltClearsRunning : Prop :=
  encode .hlt = [0x01#8] ∧
  (∀ s : State, exec .hlt s = .next { s with running := false, phase := .halted, pc := s.pc + 1#9 }) ∧
  (∀ s : State, s.Enabled → s.pc.toNat ≤ 255 → opcodeAt s = 0x01#8 → step s = exec .hlt s) ∧
  (∀ s : State, s.Enabled → s.pc.toNat = 256 → step s = .next (s.raise (.addressRange 256))) ∧
  (∀ s t : State, s.running = true → step s = .next t → t.phase = .halted → opcodeAt s = 0x01#8) ∧
  (∀ s t : State, exec .hlt s = .next t → t.exitStatus = some 0 ∧ ∀ u, step t ≠ .next u)

/-- R81. Every byte is a legal immediate; `a = 7` writes the stack pointer. -/
def Obligations.LdiLoadsImmediate : Prop :=
  (∀ a imm : Byte, encode (.ldi a imm) = [0x82#8, a, imm]) ∧
  (∀ (a imm : Byte) (s : State) (_ : a.toNat < 8), s.running = true →
    exec (.ldi a imm) s =
      .next { s with regs := s.regs.set a.toNat imm, pc := s.pc + 3#9, phase := .running }) ∧
  (∀ a imm : Byte, 7 < a.toNat → RefusesRegister (.ldi a imm) a) ∧
  OperandFetchFaults 0x82#8 2

/-- R82. The rendering is one decimal numeral and a newline. -/
def Obligations.PrnOutputsRegister : Prop :=
  (∀ a : Byte, encode (.prn a) = [0x47#8, a]) ∧
  (∀ (a : Byte) (s : State) (_ : a.toNat < 8), s.running = true →
    exec (.prn a) s =
      .next { s with out := s.out ++ [s.regs[a.toNat]], pc := s.pc + 2#9, phase := .running }) ∧
  (∀ (s : State) (v : Byte),
    { s with out := s.out ++ [v] }.text = s.text ++ Nat.toDigits 10 v.toNat ++ ['\n']) ∧
  (∀ a : Byte, 7 < a.toNat → RefusesRegister (.prn a) a) ∧
  OperandFetchFaults 0x47#8 1

/-- R86. `a` is checked first; `a = b` doubles; register 7 is an ordinary register here. -/
def Obligations.AddSumsModulo256 : Prop :=
  (∀ a b : Byte, encode (.add a b) = [0xA0#8, a, b]) ∧
  (∀ (a b : Byte) (s : State) (_ : a.toNat < 8) (_ : b.toNat < 8), s.running = true →
    exec (.add a b) s = .next { s with
      regs := s.regs.set a.toNat (BitVec.ofNat 8 ((s.regs[a.toNat].toNat + s.regs[b.toNat].toNat) % 256)),
      pc := s.pc + 3#9, phase := .running }) ∧
  (∀ a b : Byte, (7 < a.toNat → RefusesRegister (.add a b) a) ∧
    (a.toNat ≤ 7 → 7 < b.toNat → RefusesRegister (.add a b) b)) ∧
  OperandFetchFaults 0xA0#8 2

/-- R87; the opcode value is the rule's, from general knowledge (D2, log 7). -/
def Obligations.MulMultipliesModulo256 : Prop :=
  (∀ a b : Byte, encode (.mul a b) = [0xA2#8, a, b]) ∧
  (∀ (a b : Byte) (s : State) (_ : a.toNat < 8) (_ : b.toNat < 8), s.running = true →
    exec (.mul a b) s = .next { s with
      regs := s.regs.set a.toNat (BitVec.ofNat 8 ((s.regs[a.toNat].toNat * s.regs[b.toNat].toNat) % 256)),
      pc := s.pc + 3#9, phase := .running }) ∧
  (∀ a b : Byte, (7 < a.toNat → RefusesRegister (.mul a b) a) ∧
    (a.toNat ≤ 7 → 7 < b.toNat → RefusesRegister (.mul a b) b)) ∧
  OperandFetchFaults 0xA2#8 2

/-- R88, for both values of CMP_CLEARS_FL: exactly one of E, G and L is set, by unsigned comparison; the other bits are
cleared or kept as the parameter says; no register changes. -/
def Obligations.CmpSetsOneFlag : Prop :=
  (∀ a b : Byte, encode (.cmp a b) = [0xA7#8, a, b]) ∧
  (∀ (a b : Byte) (s : State) (_ : a.toNat < 8) (_ : b.toNat < 8) (bit : Byte), s.running = true →
    ((s.regs[a.toNat].toNat = s.regs[b.toNat].toNat ∧ bit = 0b00000001#8) ∨
     (s.regs[a.toNat].toNat > s.regs[b.toNat].toNat ∧ bit = 0b00000010#8) ∨
     (s.regs[a.toNat].toNat < s.regs[b.toNat].toNat ∧ bit = 0b00000100#8)) →
    exec (.cmp a b) s = .next { s with
      fl := (if s.cfg.cmpClearsFl then 0x00#8 else s.fl) ||| bit, pc := s.pc + 3#9, phase := .running }) ∧
  (∀ a b : Byte, (7 < a.toNat → RefusesRegister (.cmp a b) a) ∧
    (a.toNat ≤ 7 → 7 < b.toNat → RefusesRegister (.cmp a b) b)) ∧
  OperandFetchFaults 0xA7#8 2

/-- R91. The byte stored is the register's after SP was decremented, so PUSH R7 stores the decremented SP. -/
def Obligations.PushDecrementsThenStores : Prop :=
  (∀ a : Byte, encode (.push a) = [0x45#8, a]) ∧
  (∀ (a : Byte) (s : State) (_ : a.toNat < 8), s.running = true →
    exec (.push a) s = .next { s with
      regs := s.regs.set 7 (s.regs[7] - 1#8),
      mem := Memory.set s.mem (s.regs[7] - 1#8).toNat (if a.toNat = 7 then s.regs[7] - 1#8 else s.regs[a.toNat]),
      pc := s.pc + 2#9, phase := .running }) ∧
  (∀ a : Byte, 7 < a.toNat → RefusesRegister (.push a) a) ∧
  OperandFetchFaults 0x45#8 1

/-- R92. The register is written before SP is incremented, so POP R7 leaves the loaded byte plus 1 in SP. -/
def Obligations.PopLoadsThenIncrements : Prop :=
  (∀ a : Byte, encode (.pop a) = [0x46#8, a]) ∧
  (∀ (a : Byte) (s : State) (_ : a.toNat < 8), s.running = true →
    exec (.pop a) s = .next { s with
      regs := if a.toNat = 7 then s.regs.set 7 (s.cell s.regs[7].toNat + 1#8)
        else (s.regs.set a.toNat (s.cell s.regs[7].toNat)).set 7 (s.regs[7] + 1#8),
      pc := s.pc + 2#9, phase := .running }) ∧
  (∀ a : Byte, 7 < a.toNat → RefusesRegister (.pop a) a) ∧
  OperandFetchFaults 0x46#8 1

/-- R95. The return address is checked before the push; the target is read after it, so CALL R7 jumps to the decremented SP. -/
def Obligations.CallPushesReturnAddress : Prop :=
  (∀ a : Byte, encode (.call a) = [0x50#8, a]) ∧
  (∀ (a : Byte) (s : State) (_ : a.toNat < 8), s.running = true → s.pc.toNat + 2 ≤ 255 →
    exec (.call a) s = .next { s with
      regs := s.regs.set 7 (s.regs[7] - 1#8),
      mem := Memory.set s.mem (s.regs[7] - 1#8).toNat (BitVec.ofNat 8 (s.pc.toNat + 2)),
      pc := (if a.toNat = 7 then s.regs[7] - 1#8 else s.regs[a.toNat]).setWidth 9, phase := .running }) ∧
  (∀ (a : Byte) (s : State), a.toNat < 8 → 255 < s.pc.toNat + 2 →
    exec (.call a) s = .next (s.raise (.addressRange (s.pc.toNat + 2)))) ∧
  (∀ a : Byte, 7 < a.toNat → RefusesRegister (.call a) a) ∧
  OperandFetchFaults 0x50#8 1

/-- R96. RET has no fault of its own. -/
def Obligations.RetPopsProgramCounter : Prop :=
  encode .ret = [0x11#8] ∧
  (∀ s : State, s.running = true →
    exec .ret s = .next { s with
      regs := s.regs.set 7 (s.regs[7] + 1#8), pc := (s.cell s.regs[7].toNat).setWidth 9, phase := .running }) ∧
  (∀ s : State, s.Enabled → s.pc.toNat ≤ 255 → opcodeAt s = 0x11#8 → step s = exec .ret s) ∧
  (∀ s : State, s.Enabled → s.pc.toNat = 256 → step s = .next (s.raise (.addressRange 256)))

/-- R97; the opcode value is the rule's, from general knowledge (D2, log 7), as are those of the other control transfers, of CMP
and of the stack. -/
def Obligations.JmpSetsProgramCounter : Prop :=
  (∀ a : Byte, encode (.jmp a) = [0x54#8, a]) ∧
  (∀ (a : Byte) (s : State) (_ : a.toNat < 8), s.running = true →
    exec (.jmp a) s = .next { s with pc := s.regs[a.toNat].setWidth 9, phase := .running }) ∧
  (∀ a : Byte, 7 < a.toNat → RefusesRegister (.jmp a) a) ∧
  OperandFetchFaults 0x54#8 1

/-- R98. The operand is fetched and checked whether or not the branch is taken. -/
def Obligations.JeqJumpsWhenEqual : Prop :=
  (∀ a : Byte, encode (.jeq a) = [0x55#8, a]) ∧
  (∀ (a : Byte) (s : State) (_ : a.toNat < 8), s.running = true →
    exec (.jeq a) s = .next { s with
      pc := if s.fl.getLsbD 0 = true then s.regs[a.toNat].setWidth 9 else s.pc + 2#9, phase := .running }) ∧
  (∀ a : Byte, 7 < a.toNat → RefusesRegister (.jeq a) a) ∧
  OperandFetchFaults 0x55#8 1

/-- R99. -/
def Obligations.JneJumpsWhenNotEqual : Prop :=
  (∀ a : Byte, encode (.jne a) = [0x56#8, a]) ∧
  (∀ (a : Byte) (s : State) (_ : a.toNat < 8), s.running = true →
    exec (.jne a) s = .next { s with
      pc := if s.fl.getLsbD 0 = false then s.regs[a.toNat].setWidth 9 else s.pc + 2#9, phase := .running }) ∧
  (∀ a : Byte, 7 < a.toNat → RefusesRegister (.jne a) a) ∧
  OperandFetchFaults 0x56#8 1

/-! ### Frames -/

/-- What LDI, ADD and MUL leave unchanged when they complete (41_basic.md, 42_alu.md): every register but `a`, every flag,
every byte of memory, the output, the running flag, the fault record, the parameter. -/
def Obligations.FrameOfLdiAddMul : Prop :=
  ∀ (a b : Byte) (i : Instr) (s t : State), (i = .ldi a b ∨ i = .add a b ∨ i = .mul a b) → exec i s = .next t →
    t.phase ≠ .faulted →
    (∀ (r : Nat) (_ : r < 8), r ≠ a.toNat → t.regs[r] = s.regs[r]) ∧ t.fl = s.fl ∧ (∀ ad, t.cell ad = s.cell ad) ∧
    t.out = s.out ∧ t.running = s.running ∧ t.fault = s.fault ∧ t.cfg = s.cfg

/-- What HLT, PRN, CMP, JMP, JEQ and JNE leave unchanged when they complete: every register and every byte of memory; FL but
for CMP; the output but for PRN; the running flag but for HLT; of FL, CMP leaves bits 7:3 alone or clears them. -/
def Obligations.FrameOfHltPrnCmpAndJumps : Prop :=
  ∀ (a b : Byte) (i : Instr) (s t : State),
    (i = .hlt ∨ i = .prn a ∨ i = .cmp a b ∨ i = .jmp a ∨ i = .jeq a ∨ i = .jne a) → exec i s = .next t →
    t.phase ≠ .faulted →
    t.regs = s.regs ∧ (∀ ad, t.cell ad = s.cell ad) ∧ (i ≠ .cmp a b → t.fl = s.fl) ∧
    (i = .cmp a b → t.fl >>> 3 = if s.cfg.cmpClearsFl then 0#8 else s.fl >>> 3) ∧
    (i ≠ .prn a → t.out = s.out) ∧ (i ≠ .hlt → t.running = s.running) ∧ t.fault = s.fault ∧ t.cfg = s.cfg

/-- What POP and RET leave unchanged when they complete: every register but register 7 and, for POP, `a`; every flag; every
byte of memory (a popped cell keeps its value, R90). -/
def Obligations.FrameOfPopAndRet : Prop :=
  ∀ (a : Byte) (i : Instr) (s t : State), (i = .pop a ∨ i = .ret) → exec i s = .next t → t.phase ≠ .faulted →
    (∀ (r : Nat) (_ : r < 8), r ≠ 7 → (i = .pop a → r ≠ a.toNat) → t.regs[r] = s.regs[r]) ∧ t.fl = s.fl ∧
    (∀ ad, t.cell ad = s.cell ad) ∧ t.out = s.out ∧ t.running = s.running ∧ t.fault = s.fault ∧ t.cfg = s.cfg

/-- What PUSH and CALL leave unchanged when they complete: every register but register 7, every flag, and every byte of memory
but the one at the decremented stack pointer. -/
def Obligations.FrameOfPushAndCall : Prop :=
  ∀ (a : Byte) (i : Instr) (s t : State), (i = .push a ∨ i = .call a) → exec i s = .next t → t.phase ≠ .faulted →
    (∀ (r : Nat) (_ : r < 8), r ≠ 7 → t.regs[r] = s.regs[r]) ∧ t.fl = s.fl ∧
    (∀ ad, ad ≠ (s.sp - 1).toNat → t.cell ad = s.cell ad) ∧
    t.out = s.out ∧ t.running = s.running ∧ t.fault = s.fault ∧ t.cfg = s.cfg

/-! ### Rules about the whole machine -/

/-- R12: no instruction writes a register outside the table's second column, and none depends on one outside its first. -/
def Obligations.RegisterAccessTable : Prop :=
  (∀ (i : Instr) (s t : State), exec i s = .next t →
    ∀ (r : Nat) (_ : r < 8), r ∉ registersWritten i → t.regs[r] = s.regs[r]) ∧
  (∀ (i : Instr) (s : State) (r : Reg) (v : Byte), r.val ∉ registersRead s.fl i →
    (r.val ∉ registersWritten i → exec i (s.writeReg r v) = onNext (fun t => t.writeReg r v) (exec i s)) ∧
    (r.val ∈ registersWritten i → exec i (s.writeReg r v) = exec i s))

/-- 10_state.md section 4 (R16): CMP alone writes FL; JEQ and JNE alone, beside CMP itself, depend on it, and on bit E only. -/
def Obligations.OnlyCmpWritesFlags : Prop :=
  (∀ (i : Instr) (s t : State), exec i s = .next t → t.fl ≠ s.fl → ∃ a b, i = .cmp a b) ∧
  (∀ (i : Instr) (s : State) (f : Byte), (∀ a b, i ≠ .cmp a b) →
    ((∃ a, i = .jeq a ∨ i = .jne a) → f.getLsbD 0 = s.fl.getLsbD 0) →
    exec i (s.setFl f) = onNext (fun t => t.setFl f) (exec i s))

/-- R17: true at construction; HLT alone writes the running flag, and clears it; no instruction reads it (only the loop test,
which sets the phase, does); a state it leaves false is stopped in; it is never set back. -/
def Obligations.OnlyHltClearsRunning : Prop :=
  State.reset.running = true ∧
  (∀ (i : Instr) (s t : State), exec i s = .next t → t.running = s.running ∨ (i = .hlt ∧ t.running = false)) ∧
  (∀ (i : Instr) (s : State) (r : Bool),
    onNext (fun t => { t with running := true, phase := .running }) (exec i { s with running := r }) =
    onNext (fun t => { t with running := true, phase := .running }) (exec i s)) ∧
  (∀ s t : State, step s = .next t → (s.running = false → t.running = false) ∧
    (t.running = false → ∀ u, step t ≠ .next u))

/-- 10_state.md section 5 (R20): PRN alone appends to the output, its register's byte; nothing is ever taken back; and no
instruction depends on what was output before. -/
def Obligations.OnlyPrnAppendsOutput : Prop :=
  (∀ (i : Instr) (s t : State), exec i s = .next t → t.out = s.out ∨
    ∃ (a : Byte) (_ : a.toNat < 8), i = .prn a ∧ t.out = s.out ++ [s.regs[a.toNat]]) ∧
  (∀ (i : Instr) (s : State) (o : List Byte),
    exec i { s with out := o } = onNext (fun t => { t with out := o ++ t.out.drop s.out.length }) (exec i s))

/-- 20_memory.md section 1 (R31): the only data read is the byte SP points at, by POP and RET. A change to any other cell
changes nothing else that an instruction leaves. -/
def Obligations.OnlyPopAndRetReadData : Prop :=
  ∀ (i : Instr) (s : State) (ad : Nat) (v : Byte), ((∃ a, i = .pop a) ∨ i = .ret → ad ≠ s.sp.toNat) →
    onNext (fun t => { t with mem := [] }) (exec i (s.setCell ad v)) =
    onNext (fun t => { t with mem := [] }) (exec i s)

/-- R72: after HLT, LDI, PRN, ADD, MUL, PUSH, POP and CMP the dispatcher adds the width, without wrapping inside memory; CALL,
RET, JMP, JEQ and JNE set PC themselves. -/
def Obligations.ProgramCounterAdvance : Prop :=
  ∀ (i : Instr) (s t : State), exec i s = .next t → t.phase ≠ .faulted →
    (advancedByDispatcher i = true → s.pc.toNat + (1 + topTwoBits i.opcode) ≤ 256 →
      t.pc.toNat = s.pc.toNat + (1 + topTwoBits i.opcode)) ∧
    (∀ (a : Byte) (_ : a.toNat < 8),
      (i = .call a → t.pc.toNat = t.regs[a.toNat].toNat) ∧
      (i = .jmp a → t.pc.toNat = s.regs[a.toNat].toNat) ∧
      (i = .jeq a → t.pc.toNat = s.regs[a.toNat].toNat ∨ t.pc = s.pc + 2#9) ∧
      (i = .jne a → t.pc.toNat = s.regs[a.toNat].toNat ∨ t.pc = s.pc + 2#9)) ∧
    (i = .ret → t.pc.toNat = (s.cell s.sp.toNat).toNat)

/-- 40_cycle.md section 2, the bound that the spec derives from its step: after any step that completes without a fault PC is at
most 256, and it is 256 only when the last byte of the instruction just executed is at address 255. -/
def Obligations.ProgramCounterBound : Prop :=
  ∀ s t : State, step s = .next t → t.phase ≠ .faulted →
    t.pc.toNat ≤ 256 ∧
    (t.pc.toNat = 256 → ∃ i, s.fetch = .ok i ∧ s.pc.toNat + (encode i).length - 1 = 255)

/-- 60_exceptions.md section 6: the phases a step leads from and to, when, and with which exit status. That every fault, and not
only the unknown opcode, leads to Faulted is the spec's own reading ("this spec sends all four faults there", C4). -/
def Obligations.PhaseTransitions : Prop :=
  State.reset.phase = .loading ∧
  (∀ s t : State, step s = .next t →
    (s.phase = .loading ∨ s.phase = .running) ∧
    ((t.phase = .running ∧ t.running = true) ∨ (t.phase = .halted ∧ t.running = false) ∨
     (t.phase = .faulted ∧ ∃ f, t = s.raise f)) ∧
    (s.Inv → (t.phase = .halted ↔ s.fetch = .ok .hlt))) ∧
  (∀ s : State, (s.phase = .halted → s.exitStatus = some 0 ∧ ∀ t, step s ≠ .next t) ∧
    (s.phase = .faulted → (∃ n, s.exitStatus = some n ∧ n ≠ 0) ∧ ∀ t, step s ≠ .next t))

/-- The parameter CMP_CLEARS_FL is the model's own field (log 1): no step changes it, so a run has one value throughout. -/
def Obligations.ParameterNeverChanges : Prop :=
  ∀ s t : State, step s = .next t → t.cfg = s.cfg

/-- 42_alu.md section 5 and 70_reset_and_hazards.md section 3: with CMP_CLEARS_FL false a flag once set stays set, and after
an equal comparison every JEQ is taken and no JNE is. -/
def Obligations.StickyFlagsStaySet : Prop :=
  (∀ (s t : State), s.cfg.cmpClearsFl = false → step s = .next t →
    ∀ k, s.fl.getLsbD k = true → t.fl.getLsbD k = true) ∧
  (∀ (a : Byte) (s t : State) (_ : a.toNat < 8), s.fl.getLsbD 0 = true →
    (exec (.jeq a) s = .next t → t.pc.toNat = s.regs[a.toNat].toNat) ∧
    (exec (.jne a) s = .next t → t.pc = s.pc + 2#9))

/-- 42_alu.md section 5: with CMP_CLEARS_FL true FL is 0 or exactly one of E, G and L, in every state of a run. -/
def Obligations.ClearedFlagsAreOneHot : Prop :=
  (∀ cfg : Config, (State.resetWith cfg).FlOneHot) ∧
  (∀ s t : State, s.cfg.cmpClearsFl = true → s.FlOneHot → step s = .next t → t.FlOneHot)

/-! ### Memory -/

/-- 20_memory.md section 2: the access primitives. A read changes nothing and gives the cell; a write changes that cell and no
other; above 255 both are the fault AddressRange of that address ("the range test and the fault are this spec's decision", D7).
Memory keeps its canonical form (log 6). -/
def Obligations.MemoryPrimitives : Prop :=
  ∀ (s : State) (addr : Nat) (v : Byte), Memory.wf s.mem = true →
    (255 < addr → s.memRead addr = .error (.addressRange addr) ∧ s.memWrite addr v = .error (.addressRange addr)) ∧
    (addr ≤ 255 → s.memRead addr = .ok (s.cell addr) ∧
      ∃ t, s.memWrite addr v = .ok t ∧ Memory.wf t.mem = true ∧ t.cell addr = v ∧
        (∀ k, k ≠ addr → t.cell k = s.cell k) ∧ t = { s with mem := t.mem })

/-- Equal memories are equal data: two canonical memories that read alike in every cell are the same list (log 6). -/
def Obligations.CanonicalMemoryIsExtensional : Prop :=
  ∀ m n : Memory, Memory.wf m = true → Memory.wf n = true →
    (∀ a, a ≤ 255 → Memory.get m a = Memory.get n a) → m = n

/-- 20_memory.md section 10 (R42): a byte that PUSH stores where the next instruction lies is the opcode that is fetched
next, with nothing in between; if it is HLT's, the next step halts. -/
def Obligations.StoredByteIsFetched : Prop :=
  ∀ (a v : Byte) (s : State) (_ : a.toNat < 8), Memory.wf s.mem = true → s.running = true →
    s.pc.toNat + 2 = (s.regs[7] - 1#8).toNat →
    v = (if a.toNat = 7 then s.regs[7] - 1#8 else s.regs[a.toNat]) →
    ∃ t, exec (.push a) s = .next t ∧ t.fetchBytes.head? = some v ∧
      (v = 0x01#8 → ∃ u, step t = .next u ∧ u.phase = .halted)

/-! ### The stack as a whole -/

/-- 43_stack.md section 5: PUSH then POP into a register, neither of them R7, carries the value over and restores SP, across
the wrap at 0 as well. -/
def Obligations.PushThenPopRoundTrip : Prop :=
  ∀ (a b : Byte) (s : State) (_ : a.toNat < 7) (_ : b.toNat < 7), Memory.wf s.mem = true → s.running = true →
    ∃ t u, exec (.push a) s = .next t ∧ exec (.pop b) t = .next u ∧ u.regs[b.toNat] = s.regs[a.toNat] ∧
      u.regs[7] = s.regs[7]

/-- 44_control.md section 3: a RET executed with SP and the cell it points at as the CALL left them returns to the byte after
the CALL and restores SP. -/
def Obligations.CallThenRetReturns : Prop :=
  ∀ (a : Byte) (s t u : State), a.toNat < 8 → Memory.wf s.mem = true → s.pc.toNat + 2 ≤ 255 →
    exec (.call a) s = .next t → u.regs[7] = t.regs[7] → u.cell t.regs[7].toNat = t.cell t.regs[7].toNat →
    ∃ w, exec .ret u = .next w ∧ w.pc.toNat = s.pc.toNat + 2 ∧ w.regs[7] = s.regs[7]

/-- 10_state.md section 2: register 7 and SP are one cell. What LDI R7 writes is where the next PUSH stores below and the next
POP loads from. -/
def Obligations.StackPointerIsRegisterSeven : Prop :=
  ∀ (v a : Byte) (s : State) (_ : a.toNat < 7), Memory.wf s.mem = true → s.running = true →
    ∃ t, exec (.ldi 7#8 v) s = .next t ∧ t.sp = v ∧
      (∃ u, exec (.push a) t = .next u ∧ u.cell (v - 1#8).toNat = s.regs[a.toNat]) ∧
      (∃ u, exec (.pop a) t = .next u ∧ u.regs[a.toNat] = s.cell v.toNat ∧ u.sp = v + 1#8)

/-! ### Arithmetic and branches -/

/-- 42_alu.md section 2: ADD and MUL of two registers give the same value in either order from the same state, and swapping
CMP's operands swaps G and L. -/
def Obligations.OperandOrder : Prop :=
  ∀ (a b : Byte) (s : State) (_ : a.toNat < 8) (_ : b.toNat < 8),
    (∃ t u, exec (.add a b) s = .next t ∧ exec (.add b a) s = .next u ∧ t.regs[a.toNat] = u.regs[b.toNat]) ∧
    (∃ t u, exec (.mul a b) s = .next t ∧ exec (.mul b a) s = .next u ∧ t.regs[a.toNat] = u.regs[b.toNat]) ∧
    (s.fl = 0#8 → ∃ t u, exec (.cmp a b) s = .next t ∧ exec (.cmp b a) s = .next u ∧
      t.fl.getLsbD 0 = u.fl.getLsbD 0 ∧ t.fl.getLsbD 1 = u.fl.getLsbD 2 ∧ t.fl.getLsbD 2 = u.fl.getLsbD 1)

/-- 44_control.md sections 6 and 7: on the same state exactly one of JEQ and JNE goes to the register's address by its
condition, and the other to PC + 2. -/
def Obligations.ExactlyOneBranchTaken : Prop :=
  ∀ (a : Byte) (s : State) (_ : a.toNat < 8),
    ∃ t u, exec (.jeq a) s = .next t ∧ exec (.jne a) s = .next u ∧
      ((s.fl.getLsbD 0 = true ∧ t.pc = s.regs[a.toNat].setWidth 9 ∧ u.pc = s.pc + 2#9) ∨
       (s.fl.getLsbD 0 = false ∧ t.pc = s.pc + 2#9 ∧ u.pc = s.regs[a.toNat].setWidth 9))

/-! ### Reset, load, invariant -/

/-- 10_state.md section 7: every piece of state after reset. The values of R0..R6, FL and memory "are this spec's decisions"
(D4 to D6, log 2); those of PC, register 7 and the running flag are REPO-SPEC's. -/
def Obligations.ResetState : Prop :=
  State.reset.pc = 0#9 ∧ State.reset.regs[7] = 0xF4#8 ∧ State.reset.running = true ∧
  (∀ (r : Nat) (_ : r < 7), State.reset.regs[r] = 0x00#8) ∧ State.reset.fl = 0x00#8 ∧
  (∀ ad, ad ≤ 255 → State.reset.cell ad = 0x00#8) ∧ State.reset.phase = .loading ∧ State.reset.fault = none ∧
  State.reset.out = []

/-- 20_memory.md section 11: the start state of a run of a program of at most 256 bytes, for either value of the parameter. That
the other cells hold 0 is the spec's own decision D6 (log 2), that the program arrives whole is the model's load interface
(log 8). -/
def Obligations.LoadedProgram : Prop :=
  ∀ (cfg : Config) (p : List Byte), p.length ≤ 256 →
    (∀ (k : Nat) (hk : k < p.length), (State.launch cfg p).cell k = p[k]) ∧
    (∀ k, p.length ≤ k → k ≤ 255 → (State.launch cfg p).cell k = 0x00#8) ∧
    State.launch cfg p = { State.resetWith cfg with mem := (State.launch cfg p).mem } ∧
    (State.launch cfg p).Inv

/-- The invariant of the machine (R13, R15, R18, R21, R30) holds after reset. -/
def Obligations.InvariantHoldsAtReset : Prop := State.reset.Inv ∧ ∀ cfg : Config, (State.resetWith cfg).Inv

/-- Every step keeps the invariant, from any state that meets it: PC at most 256, FL's upper five bits 0, Halted exactly when
not running, Faulted exactly when a fault is recorded, memory canonical. -/
def Obligations.EveryStepKeepsInvariant : Prop :=
  ∀ s t : State, s.Inv → step s = .next t → t.Inv
end

