-- ==== Sys2Proof/Laws/PerInstr.lean ====
section
/-! SUPPORT. The statement made of every instruction: its opcode's row of the table is its own, and rebuilds it from its
operand bytes. -/

namespace Sys2Proof.Laws.TableRow

/-- Looking up the instruction's opcode gives the format that takes its operands and rebuilds it, and the number of its
operands is the one its top two opcode bits give (R50, R51, R56). -/
def Statement (i : Instr) : Prop :=
  (∃ sh, lookup i.opcode = some sh ∧ ∀ rest, takeOperands sh (i.operands ++ rest) = checkOperands i rest) ∧
  i.operands.length = operandCount i.opcode

theorem hlt : Statement .hlt := ⟨⟨_, rfl, fun _ => rfl⟩, by simp [Instr.operands, Instr.opcode, operandCount]⟩
theorem ldi (a imm : Byte) : Statement (.ldi a imm) := ⟨⟨_, rfl, fun _ => rfl⟩, by simp [Instr.operands, Instr.opcode, operandCount]⟩
theorem prn (a : Byte) : Statement (.prn a) := ⟨⟨_, rfl, fun _ => rfl⟩, by simp [Instr.operands, Instr.opcode, operandCount]⟩
theorem add (a b : Byte) : Statement (.add a b) := ⟨⟨_, rfl, fun _ => rfl⟩, by simp [Instr.operands, Instr.opcode, operandCount]⟩
theorem mul (a b : Byte) : Statement (.mul a b) := ⟨⟨_, rfl, fun _ => rfl⟩, by simp [Instr.operands, Instr.opcode, operandCount]⟩
theorem push (a : Byte) : Statement (.push a) := ⟨⟨_, rfl, fun _ => rfl⟩, by simp [Instr.operands, Instr.opcode, operandCount]⟩
theorem pop (a : Byte) : Statement (.pop a) := ⟨⟨_, rfl, fun _ => rfl⟩, by simp [Instr.operands, Instr.opcode, operandCount]⟩
theorem call (a : Byte) : Statement (.call a) := ⟨⟨_, rfl, fun _ => rfl⟩, by simp [Instr.operands, Instr.opcode, operandCount]⟩
theorem ret : Statement .ret := ⟨⟨_, rfl, fun _ => rfl⟩, by simp [Instr.operands, Instr.opcode, operandCount]⟩
theorem cmp (a b : Byte) : Statement (.cmp a b) := ⟨⟨_, rfl, fun _ => rfl⟩, by simp [Instr.operands, Instr.opcode, operandCount]⟩
theorem jmp (a : Byte) : Statement (.jmp a) := ⟨⟨_, rfl, fun _ => rfl⟩, by simp [Instr.operands, Instr.opcode, operandCount]⟩
theorem jeq (a : Byte) : Statement (.jeq a) := ⟨⟨_, rfl, fun _ => rfl⟩, by simp [Instr.operands, Instr.opcode, operandCount]⟩
theorem jne (a : Byte) : Statement (.jne a) := ⟨⟨_, rfl, fun _ => rfl⟩, by simp [Instr.operands, Instr.opcode, operandCount]⟩

end Sys2Proof.Laws.TableRow
end

