-- ==== Sys2Proof/Laws/Decode.lean ====
section
/-! SUPPORT. The decoder: what it can answer, and that it agrees with `Instr.WellFormed`. -/

namespace Sys2Proof

/-- The decoder's register check refuses nothing exactly on the well-formed instructions (R53). -/
theorem badRegister_eq_none (i : Instr) : i.badRegister = none ↔ i.WellFormed = true := by
  cases i <;> simp only [Instr.badRegister, Instr.WellFormed, legalRegister, Bool.and_eq_true, decide_eq_true_eq]
  all_goals grind

theorem checkOperands_ok {i j : Instr} {rest rest' : List Byte} (h : checkOperands i rest = .ok (j, rest')) :
    j = i ∧ rest' = rest ∧ i.WellFormed = true := by
  unfold checkOperands at h
  split at h
  · cases h
  · rename_i hb
    cases h
    exact ⟨rfl, rfl, (badRegister_eq_none i).1 hb⟩

theorem checkOperands_error {i : Instr} {rest : List Byte} {e : DecodeError} (h : checkOperands i rest = .error e) :
    ∃ v, i.badRegister = some v ∧ e = .badRegister v := by
  unfold checkOperands at h
  split at h
  · cases h; exact ⟨_, ‹_›, rfl⟩
  · cases h

/-- What a table looks up is one of its rows. -/
theorem lookupIn_mem {rows : List (Byte × Shape)} {op : Byte} {sh : Shape} (h : lookupIn rows op = some sh) :
    (op, sh) ∈ rows := by
  induction rows with
  | nil => cases h
  | cons r rows ih =>
    obtain ⟨k, sh'⟩ := r
    rw [lookupIn] at h
    split at h
    · cases h; subst_vars; exact List.mem_cons_self
    · exact List.mem_cons_of_mem _ (ih h)

/-- What the opcode table looks up is one of its thirteen rows. -/
theorem lookup_mem {op : Byte} {sh : Shape} (h : lookup op = some sh) : (op, sh) ∈ opcodeTable := lookupIn_mem h

/-- Decoding an instruction's own bytes comes down to the check of its register operands. -/
theorem decode_encode_append (i : Instr) (rest : List Byte) : decode (encode i ++ rest) = checkOperands i rest := by
  have row : Laws.TableRow.Statement i := by
    cases i with
    | hlt => exact Laws.TableRow.hlt
    | ldi a imm => exact Laws.TableRow.ldi a imm
    | prn a => exact Laws.TableRow.prn a
    | add a b => exact Laws.TableRow.add a b
    | mul a b => exact Laws.TableRow.mul a b
    | push a => exact Laws.TableRow.push a
    | pop a => exact Laws.TableRow.pop a
    | call a => exact Laws.TableRow.call a
    | ret => exact Laws.TableRow.ret
    | cmp a b => exact Laws.TableRow.cmp a b
    | jmp a => exact Laws.TableRow.jmp a
    | jeq a => exact Laws.TableRow.jeq a
    | jne a => exact Laws.TableRow.jne a
  obtain ⟨⟨sh, hl, ht⟩, -⟩ := row
  simp [encode, decode, hl, ht]

end Sys2Proof
end

