-- ==== Sys2Proof/Laws/State.lean ====
section
/-! SUPPORT. One lemma per field per update of the state, true by unfolding, so that no later proof unfolds a record
update. -/

namespace Sys2Proof.Machine

variable (s : State)

/-! ### `State.writeReg` -/

@[simp] theorem writeReg_regs (r : Reg) (v : Byte) : (s.writeReg r v).regs = s.regs.set r v := rfl
@[simp] theorem writeReg_pc (r : Reg) (v : Byte) : (s.writeReg r v).pc = s.pc := rfl
@[simp] theorem writeReg_fl (r : Reg) (v : Byte) : (s.writeReg r v).fl = s.fl := rfl
@[simp] theorem writeReg_running (r : Reg) (v : Byte) : (s.writeReg r v).running = s.running := rfl
@[simp] theorem writeReg_phase (r : Reg) (v : Byte) : (s.writeReg r v).phase = s.phase := rfl
@[simp] theorem writeReg_fault (r : Reg) (v : Byte) : (s.writeReg r v).fault = s.fault := rfl
@[simp] theorem writeReg_out (r : Reg) (v : Byte) : (s.writeReg r v).out = s.out := rfl
@[simp] theorem writeReg_mem (r : Reg) (v : Byte) : (s.writeReg r v).mem = s.mem := rfl
@[simp] theorem writeReg_cfg (r : Reg) (v : Byte) : (s.writeReg r v).cfg = s.cfg := rfl

/-! ### `State.setSp` -/

@[simp] theorem setSp_regs (v : Byte) : (s.setSp v).regs = s.regs.set spReg v := rfl
@[simp] theorem setSp_pc (v : Byte) : (s.setSp v).pc = s.pc := rfl
@[simp] theorem setSp_fl (v : Byte) : (s.setSp v).fl = s.fl := rfl
@[simp] theorem setSp_running (v : Byte) : (s.setSp v).running = s.running := rfl
@[simp] theorem setSp_phase (v : Byte) : (s.setSp v).phase = s.phase := rfl
@[simp] theorem setSp_fault (v : Byte) : (s.setSp v).fault = s.fault := rfl
@[simp] theorem setSp_out (v : Byte) : (s.setSp v).out = s.out := rfl
@[simp] theorem setSp_mem (v : Byte) : (s.setSp v).mem = s.mem := rfl
@[simp] theorem setSp_cfg (v : Byte) : (s.setSp v).cfg = s.cfg := rfl

/-! ### `State.output` -/

@[simp] theorem output_regs (v : Byte) : (s.output v).regs = s.regs := rfl
@[simp] theorem output_pc (v : Byte) : (s.output v).pc = s.pc := rfl
@[simp] theorem output_fl (v : Byte) : (s.output v).fl = s.fl := rfl
@[simp] theorem output_running (v : Byte) : (s.output v).running = s.running := rfl
@[simp] theorem output_phase (v : Byte) : (s.output v).phase = s.phase := rfl
@[simp] theorem output_fault (v : Byte) : (s.output v).fault = s.fault := rfl
@[simp] theorem output_out (v : Byte) : (s.output v).out = s.out ++ [v] := rfl
@[simp] theorem output_mem (v : Byte) : (s.output v).mem = s.mem := rfl
@[simp] theorem output_cfg (v : Byte) : (s.output v).cfg = s.cfg := rfl

/-! ### `State.setFl` -/

@[simp] theorem setFl_regs (v : Byte) : (s.setFl v).regs = s.regs := rfl
@[simp] theorem setFl_pc (v : Byte) : (s.setFl v).pc = s.pc := rfl
@[simp] theorem setFl_fl (v : Byte) : (s.setFl v).fl = v := rfl
@[simp] theorem setFl_running (v : Byte) : (s.setFl v).running = s.running := rfl
@[simp] theorem setFl_phase (v : Byte) : (s.setFl v).phase = s.phase := rfl
@[simp] theorem setFl_fault (v : Byte) : (s.setFl v).fault = s.fault := rfl
@[simp] theorem setFl_out (v : Byte) : (s.setFl v).out = s.out := rfl
@[simp] theorem setFl_mem (v : Byte) : (s.setFl v).mem = s.mem := rfl
@[simp] theorem setFl_cfg (v : Byte) : (s.setFl v).cfg = s.cfg := rfl

/-! ### `State.stopRunning` -/

@[simp] theorem stopRunning_regs : (s.stopRunning).regs = s.regs := rfl
@[simp] theorem stopRunning_pc : (s.stopRunning).pc = s.pc := rfl
@[simp] theorem stopRunning_fl : (s.stopRunning).fl = s.fl := rfl
@[simp] theorem stopRunning_running : (s.stopRunning).running = false := rfl
@[simp] theorem stopRunning_phase : (s.stopRunning).phase = s.phase := rfl
@[simp] theorem stopRunning_fault : (s.stopRunning).fault = s.fault := rfl
@[simp] theorem stopRunning_out : (s.stopRunning).out = s.out := rfl
@[simp] theorem stopRunning_mem : (s.stopRunning).mem = s.mem := rfl
@[simp] theorem stopRunning_cfg : (s.stopRunning).cfg = s.cfg := rfl

/-! ### `State.advance` -/

@[simp] theorem advance_regs (w : Nat) : (s.advance w).regs = s.regs := rfl
@[simp] theorem advance_pc (w : Nat) : (s.advance w).pc = BitVec.ofNat 9 (s.pc.toNat + w) := rfl
@[simp] theorem advance_fl (w : Nat) : (s.advance w).fl = s.fl := rfl
@[simp] theorem advance_running (w : Nat) : (s.advance w).running = s.running := rfl
@[simp] theorem advance_phase (w : Nat) : (s.advance w).phase = s.phase := rfl
@[simp] theorem advance_fault (w : Nat) : (s.advance w).fault = s.fault := rfl
@[simp] theorem advance_out (w : Nat) : (s.advance w).out = s.out := rfl
@[simp] theorem advance_mem (w : Nat) : (s.advance w).mem = s.mem := rfl
@[simp] theorem advance_cfg (w : Nat) : (s.advance w).cfg = s.cfg := rfl

/-! ### `State.jump` -/

@[simp] theorem jump_regs (v : Byte) : (s.jump v).regs = s.regs := rfl
@[simp] theorem jump_pc (v : Byte) : (s.jump v).pc = v.setWidth 9 := rfl
@[simp] theorem jump_fl (v : Byte) : (s.jump v).fl = s.fl := rfl
@[simp] theorem jump_running (v : Byte) : (s.jump v).running = s.running := rfl
@[simp] theorem jump_phase (v : Byte) : (s.jump v).phase = s.phase := rfl
@[simp] theorem jump_fault (v : Byte) : (s.jump v).fault = s.fault := rfl
@[simp] theorem jump_out (v : Byte) : (s.jump v).out = s.out := rfl
@[simp] theorem jump_mem (v : Byte) : (s.jump v).mem = s.mem := rfl
@[simp] theorem jump_cfg (v : Byte) : (s.jump v).cfg = s.cfg := rfl

/-! ### `State.loopTest` -/

@[simp] theorem loopTest_regs : (s.loopTest).regs = s.regs := rfl
@[simp] theorem loopTest_pc : (s.loopTest).pc = s.pc := rfl
@[simp] theorem loopTest_fl : (s.loopTest).fl = s.fl := rfl
@[simp] theorem loopTest_running : (s.loopTest).running = s.running := rfl
@[simp] theorem loopTest_phase : (s.loopTest).phase = if s.running then .running else .halted := rfl
@[simp] theorem loopTest_fault : (s.loopTest).fault = s.fault := rfl
@[simp] theorem loopTest_out : (s.loopTest).out = s.out := rfl
@[simp] theorem loopTest_mem : (s.loopTest).mem = s.mem := rfl
@[simp] theorem loopTest_cfg : (s.loopTest).cfg = s.cfg := rfl

/-! ### `State.setCell` -/

@[simp] theorem setCell_regs (a : Nat) (v : Byte) : (s.setCell a v).regs = s.regs := rfl
@[simp] theorem setCell_pc (a : Nat) (v : Byte) : (s.setCell a v).pc = s.pc := rfl
@[simp] theorem setCell_fl (a : Nat) (v : Byte) : (s.setCell a v).fl = s.fl := rfl
@[simp] theorem setCell_running (a : Nat) (v : Byte) : (s.setCell a v).running = s.running := rfl
@[simp] theorem setCell_phase (a : Nat) (v : Byte) : (s.setCell a v).phase = s.phase := rfl
@[simp] theorem setCell_fault (a : Nat) (v : Byte) : (s.setCell a v).fault = s.fault := rfl
@[simp] theorem setCell_out (a : Nat) (v : Byte) : (s.setCell a v).out = s.out := rfl
@[simp] theorem setCell_mem (a : Nat) (v : Byte) : (s.setCell a v).mem = Memory.set s.mem a v := rfl
@[simp] theorem setCell_cfg (a : Nat) (v : Byte) : (s.setCell a v).cfg = s.cfg := rfl

/-! ### `State.raise` -/

@[simp] theorem raise_regs (f : FaultRecord) : (s.raise f).regs = s.regs := rfl
@[simp] theorem raise_pc (f : FaultRecord) : (s.raise f).pc = s.pc := rfl
@[simp] theorem raise_fl (f : FaultRecord) : (s.raise f).fl = s.fl := rfl
@[simp] theorem raise_running (f : FaultRecord) : (s.raise f).running = s.running := rfl
@[simp] theorem raise_phase (f : FaultRecord) : (s.raise f).phase = .faulted := rfl
@[simp] theorem raise_fault (f : FaultRecord) : (s.raise f).fault = some f := rfl
@[simp] theorem raise_out (f : FaultRecord) : (s.raise f).out = s.out := rfl
@[simp] theorem raise_mem (f : FaultRecord) : (s.raise f).mem = s.mem := rfl
@[simp] theorem raise_cfg (f : FaultRecord) : (s.raise f).cfg = s.cfg := rfl

/-! ### `State.dropByte` -/

@[simp] theorem dropByte_regs : s.dropByte.regs = s.regs.set spReg (s.sp + 1) := rfl
@[simp] theorem dropByte_pc : s.dropByte.pc = s.pc := rfl
@[simp] theorem dropByte_fl : s.dropByte.fl = s.fl := rfl
@[simp] theorem dropByte_running : s.dropByte.running = s.running := rfl
@[simp] theorem dropByte_phase : s.dropByte.phase = s.phase := rfl
@[simp] theorem dropByte_fault : s.dropByte.fault = s.fault := rfl
@[simp] theorem dropByte_out : s.dropByte.out = s.out := rfl
@[simp] theorem dropByte_mem : s.dropByte.mem = s.mem := rfl
@[simp] theorem dropByte_cfg : s.dropByte.cfg = s.cfg := rfl

/-! ### Reading registers and cells -/

@[simp] theorem readReg_eq (r : Reg) : s.readReg r = s.regs[r] := rfl

@[simp] theorem sp_eq : s.sp = s.regs[spReg] := rfl

theorem cell_eq (a : Nat) : s.cell a = Memory.get s.mem a := rfl

theorem readReg_writeReg_same (r : Reg) (v : Byte) : (s.writeReg r v).readReg r = v := by simp

theorem readReg_writeReg_other (r q : Reg) (v : Byte) (h : r ≠ q) : (s.writeReg r v).readReg q = s.readReg q := by
  simp only [readReg_eq, writeReg_regs, Fin.getElem_fin]
  exact Vector.getElem_set_ne r.isLt q.isLt (fun e => h (Fin.ext e))

end Sys2Proof.Machine
end

