-- ==== Sys2Proof/Laws/Memory.lean ====
section
/-! SUPPORT. Memory as data: read after write, the canonical form, and that equal readings make equal memories. -/

namespace Sys2Proof.Machine

/-! ### Read after write -/

theorem get_cons (a k : Nat) (v : Byte) (m : Memory) (h : a = k → v = Memory.blank → Memory.get m k = Memory.blank) :
    Memory.get (Memory.cons a v m) k = if a = k then v else Memory.get m k := by
  unfold Memory.cons
  split
  · rename_i hv
    split
    · rename_i e
      rw [h e hv, hv]
    · rfl
  · rfl

/-- Below the addresses of a canonical list every cell reads blank. -/
theorem get_below {lo a : Nat} {m : Memory} (h : Memory.wfFrom lo m = true) (ha : a < lo) :
    Memory.get m a = Memory.blank := by
  induction m generalizing lo with
  | nil => rfl
  | cons c m ih =>
    obtain ⟨k, v⟩ := c
    simp only [Memory.wfFrom, Bool.and_eq_true, decide_eq_true_eq] at h
    rw [Memory.get, if_neg (by omega)]
    exact ih h.2 (by omega)

/-- Above 255 every cell of a canonical list reads blank. -/
theorem get_above {lo a : Nat} {m : Memory} (h : Memory.wfFrom lo m = true) (ha : 255 < a) :
    Memory.get m a = Memory.blank := by
  induction m generalizing lo with
  | nil => rfl
  | cons c m ih =>
    obtain ⟨k, v⟩ := c
    simp only [Memory.wfFrom, Bool.and_eq_true, decide_eq_true_eq] at h
    rw [Memory.get, if_neg (by omega)]
    exact ih h.2

/-- A cell reads as it was last written, every other cell as before (R34, R39c, R44). -/
theorem get_set {lo : Nat} {m : Memory} (h : Memory.wfFrom lo m = true) (a k : Nat) (v : Byte) :
    Memory.get (Memory.set m a v) k = if a = k then v else Memory.get m k := by
  induction m generalizing lo with
  | nil => exact get_cons a k v [] fun _ _ => rfl
  | cons c m ih =>
    obtain ⟨j, w⟩ := c
    have h' := h
    simp only [Memory.wfFrom, Bool.and_eq_true, decide_eq_true_eq] at h
    rw [Memory.set]
    split
    · rename_i haj
      refine get_cons a k v _ fun e _ => ?_
      rw [Memory.get, if_neg (by omega)]
      exact get_below h.2 (by omega)
    · split
      · rename_i e
        rw [get_cons a k v m fun e' _ => get_below h.2 (by omega)]
        simp only [Memory.get]
        grind
      · simp only [Memory.get]
        rw [ih h.2]
        grind

/-- A write leaves every other cell alone, whether or not the list is canonical (R44). -/
theorem get_set_ne {m : Memory} {a k : Nat} {v : Byte} (h : k ≠ a) :
    Memory.get (Memory.set m a v) k = Memory.get m k := by
  have hc (m : Memory) : Memory.get (Memory.cons a v m) k = Memory.get m k := by
    unfold Memory.cons
    split
    · rfl
    · rw [Memory.get, if_neg fun e => h e.symm]
  induction m with
  | nil => exact hc []
  | cons c m ih =>
    obtain ⟨j, w⟩ := c
    rw [Memory.set]
    split
    · exact hc _
    · split
      · rw [hc, Memory.get, if_neg (by omega)]
      · simp only [Memory.get, ih]

/-! ### The canonical form -/

theorem wfFrom_mono {lo lo' : Nat} {m : Memory} (h : Memory.wfFrom lo m = true) (hl : lo' ≤ lo) :
    Memory.wfFrom lo' m = true := by
  cases m with
  | nil => rfl
  | cons c m =>
    obtain ⟨k, v⟩ := c
    simp only [Memory.wfFrom, Bool.and_eq_true, decide_eq_true_eq] at h ⊢
    exact ⟨⟨⟨by omega, h.1.1.2⟩, h.1.2⟩, h.2⟩

theorem wfFrom_cons {lo a : Nat} {v : Byte} {m : Memory} (hm : Memory.wfFrom (a + 1) m = true) (hl : lo ≤ a)
    (ha : a ≤ 255) : Memory.wfFrom lo (Memory.cons a v m) = true := by
  unfold Memory.cons
  split
  · exact wfFrom_mono hm (by omega)
  · rename_i hv
    simp only [Memory.wfFrom, Bool.and_eq_true, decide_eq_true_eq]
    exact ⟨⟨⟨hl, ha⟩, hv⟩, hm⟩

theorem wfFrom_set {lo a : Nat} {v : Byte} {m : Memory} (hm : Memory.wfFrom lo m = true) (hl : lo ≤ a) (ha : a ≤ 255) :
    Memory.wfFrom lo (Memory.set m a v) = true := by
  induction m generalizing lo with
  | nil => exact wfFrom_cons rfl hl ha
  | cons c m ih =>
    obtain ⟨k, w⟩ := c
    have h := hm
    simp only [Memory.wfFrom, Bool.and_eq_true, decide_eq_true_eq] at h
    rw [Memory.set]
    split
    · refine wfFrom_cons ?_ hl ha
      simp only [Memory.wfFrom, Bool.and_eq_true, decide_eq_true_eq]
      exact ⟨⟨⟨by omega, h.1.1.2⟩, h.1.2⟩, h.2⟩
    · split
      · rename_i e
        exact wfFrom_cons (e ▸ h.2) hl ha
      · simp only [Memory.wfFrom, Bool.and_eq_true, decide_eq_true_eq]
        exact ⟨h.1, ih h.2 (by omega)⟩

/-- Writing a cell keeps the canonical form. -/
theorem wf_set {m : Memory} (hm : Memory.wf m = true) {a : Nat} (ha : a ≤ 255) (v : Byte) :
    Memory.wf (Memory.set m a v) = true := wfFrom_set hm (Nat.zero_le a) ha

/-- Placing bytes keeps the canonical form. -/
theorem wf_place {m : Memory} (hm : Memory.wf m = true) (a : Nat) (bs : List Byte) :
    Memory.wf (Memory.place m a bs) = true := by
  induction bs generalizing m a with
  | nil => exact hm
  | cons b bs ih =>
    rw [Memory.place]
    split
    · exact ih (wf_set hm ‹_› b) (a + 1)
    · exact ih hm (a + 1)

/-- The memory after reset is canonical. -/
theorem wf_reset (cfg : Config) : Memory.wf (State.resetWith cfg).mem = true := rfl

/-- What placing bytes leaves in each cell: the placed byte, or what was there (R45). -/
theorem get_place {m : Memory} (hm : Memory.wf m = true) (a : Nat) (bs : List Byte) (k : Nat) (hk : k ≤ 255) :
    Memory.get (Memory.place m a bs) k =
      if h : a ≤ k ∧ k - a < bs.length then bs[k - a]'h.2 else Memory.get m k := by
  induction bs generalizing m a with
  | nil => simp [Memory.place]
  | cons b bs ih =>
    rw [Memory.place, ih (by split; exacts [wf_set hm ‹_› b, hm])]
    by_cases hka : k < a
    · rw [dif_neg (by omega), dif_neg (by omega)]
      split
      · rw [get_set hm, if_neg (by omega)]
      · rfl
    · by_cases e : k = a
      · subst e
        rw [dif_neg (by omega), dif_pos (by simp), if_pos hk, get_set hm, if_pos rfl]
        simp
      · by_cases hl : k - a < bs.length + 1
        · rw [dif_pos (by omega), dif_pos ⟨by omega, by simpa using hl⟩]
          have : k - a = (k - (a + 1)) + 1 := by omega
          simp [this]
        · rw [dif_neg (by omega), dif_neg (by simp; omega)]
          split
          · rw [get_set hm, if_neg (by omega)]
          · rfl

/-- Two canonical memories that read alike are the same list. -/
theorem eq_of_get {lo : Nat} {m n : Memory} (hm : Memory.wfFrom lo m = true) (hn : Memory.wfFrom lo n = true)
    (h : ∀ a, Memory.get m a = Memory.get n a) : m = n := by
  induction m generalizing lo n with
  | nil =>
    cases n with
    | nil => rfl
    | cons c n =>
      obtain ⟨k, v⟩ := c
      simp only [Memory.wfFrom, Bool.and_eq_true, decide_eq_true_eq] at hn
      have := h k
      simp [Memory.get] at this
      exact absurd this.symm hn.1.2
  | cons c m ih =>
    obtain ⟨k, v⟩ := c
    have hm' := hm
    simp only [Memory.wfFrom, Bool.and_eq_true, decide_eq_true_eq] at hm'
    cases n with
    | nil =>
      have := h k
      simp [Memory.get] at this
      exact absurd this hm'.1.2
    | cons d n =>
      obtain ⟨j, w⟩ := d
      have hn' := hn
      simp only [Memory.wfFrom, Bool.and_eq_true, decide_eq_true_eq] at hn'
      have hkj : k = j := by
        rcases Nat.lt_trichotomy k j with hlt | e | hlt
        · have := h k
          rw [Memory.get, if_pos rfl, Memory.get, if_neg (by omega), get_below hn'.2 (by omega)] at this
          exact absurd this hm'.1.2
        · exact e
        · have := h j
          rw [Memory.get, if_neg (by omega), get_below hm'.2 (by omega), Memory.get, if_pos rfl] at this
          exact absurd this.symm hn'.1.2
      subst hkj
      have hvw : v = w := by simpa [Memory.get] using h k
      subst hvw
      rw [ih hm'.2 hn'.2 fun a => ?_]
      by_cases ha : a < k + 1
      · rw [get_below hm'.2 ha, get_below hn'.2 ha]
      · have := h a
        rwa [Memory.get, if_neg (by omega), Memory.get, if_neg (by omega)] at this

end Sys2Proof.Machine
end

