-- ==== Sys2Proof/Laws/Ops.lean ====
section
/-! SUPPORT. What each shared operation can do, said once. -/

namespace Sys2Proof.Machine

/-! ### Access primitives -/

theorem memRead_ok {s : State} {a : Nat} (h : a ≤ 255) : s.memRead a = .ok (s.cell a) := by
  rw [State.memRead, if_neg (by omega)]

theorem memRead_error {s : State} {a : Nat} (h : 255 < a) : s.memRead a = .error (.addressRange a) := by
  rw [State.memRead, if_pos h]

theorem memWrite_ok {s : State} {a : Nat} {v : Byte} (h : a ≤ 255) :
    s.memWrite a v = .ok (s.setCell a v) := by
  rw [State.memWrite, if_neg (by omega)]

theorem memWrite_error {s : State} {a : Nat} {v : Byte} (h : 255 < a) : s.memWrite a v = .error (.addressRange a) := by
  rw [State.memWrite, if_pos h]

/-- A byte is an address (R37). -/
theorem byte_le (b : Byte) : b.toNat ≤ 255 := Nat.le_of_lt_succ b.isLt

/-! ### The stack -/

/-- A push never faults (R37, R93). -/
theorem pushByte_eq (s : State) (v : State → Byte) :
    s.pushByte v = .ok ((s.setSp (s.sp - 1)).setCell (s.sp - 1).toNat (v (s.setSp (s.sp - 1)))) := by
  rw [State.pushByte, memWrite_ok (byte_le _)]
  simp

/-- The load of a pop never faults (R37, R93). -/
theorem topByte_eq (s : State) : s.topByte = .ok (s.cell s.sp.toNat) := memRead_ok (byte_le _)

/-! ### Operands -/

theorem regOperand_ok {a : Byte} (h : a.toNat < 8) : regOperand a = .ok ⟨a.toNat, h⟩ := dif_pos h

theorem regOperand_error {a : Byte} (h : ¬ a.toNat < 8) : regOperand a = .error (.registerIndex a) := dif_neg h

theorem withReg_ok {s : State} {a : Byte} (h : a.toNat < 8) (f : Reg → Except FaultRecord State) :
    s.withReg a f = s.settle (f ⟨a.toNat, h⟩) := by
  rw [State.withReg, regOperand_ok h]; rfl

theorem withReg_error {s : State} {a : Byte} (h : ¬ a.toNat < 8) (f : Reg → Except FaultRecord State) :
    s.withReg a f = .next (s.raise (.registerIndex a)) := by
  rw [State.withReg, regOperand_error h]; rfl

theorem withRegs_ok {s : State} {a b : Byte} (ha : a.toNat < 8) (hb : b.toNat < 8)
    (f : Reg → Reg → Except FaultRecord State) :
    s.withRegs a b f = s.settle (f ⟨a.toNat, ha⟩ ⟨b.toNat, hb⟩) := by
  rw [State.withRegs, regOperand_ok ha, regOperand_ok hb]; rfl

theorem withRegs_error_first {s : State} {a b : Byte} (ha : ¬ a.toNat < 8) (f : Reg → Reg → Except FaultRecord State) :
    s.withRegs a b f = .next (s.raise (.registerIndex a)) := by
  rw [State.withRegs, regOperand_error ha]; rfl

theorem withRegs_error_second {s : State} {a b : Byte} (ha : a.toNat < 8) (hb : ¬ b.toNat < 8)
    (f : Reg → Reg → Except FaultRecord State) :
    s.withRegs a b f = .next (s.raise (.registerIndex b)) := by
  rw [State.withRegs, regOperand_ok ha, regOperand_error hb]; rfl

/-! ### The end of a step -/

theorem settle_ok (s t : State) : s.settle (.ok t) = .next t.loopTest := rfl

theorem settle_error (s : State) (f : FaultRecord) : s.settle (.error f) = .next (s.raise f) := rfl

/-- A handler ends in a next state: its own, after the loop test, or the fault taken in the state it began in (R107). -/
theorem settle_cases (s : State) (r : Except FaultRecord State) :
    (∃ t, r = .ok t ∧ s.settle r = .next t.loopTest) ∨ (∃ f, r = .error f ∧ s.settle r = .next (s.raise f)) := by
  cases r with
  | ok t => exact .inl ⟨t, rfl, rfl⟩
  | error f => exact .inr ⟨f, rfl, rfl⟩

/-- A step is enabled exactly when there is no reason to stop (R70). -/
theorem stopReason_eq_none (s : State) : s.stopReason = none ↔ s.phase = .loading ∨ s.phase = .running := by
  unfold State.stopReason
  cases s.phase <;> simp

/-! ### The ALU -/

theorem alu_add (s : State) (ra rb : Reg) :
    s.alu .add ra rb = .ok (s.writeReg ra (BitVec.ofNat 8 (s.regs[ra].toNat + s.regs[rb].toNat))) := rfl

theorem alu_mul (s : State) (ra rb : Reg) :
    s.alu .mul ra rb = .ok (s.writeReg ra (BitVec.ofNat 8 (s.regs[ra].toNat * s.regs[rb].toNat))) := rfl

theorem alu_cmp (s : State) (ra rb : Reg) :
    s.alu .cmp ra rb = .ok (s.setFl (compareFlags s.cfg.cmpClearsFl s.fl s.regs[ra] s.regs[rb])) := rfl

/-- The three outcomes of one comparison (R88's outcome table). -/
theorem compareFlags_cases (clears : Bool) (fl x y : Byte) :
    (x.toNat = y.toNat ∧ compareFlags clears fl x y = (if clears then 0x00#8 else fl) ||| 0x01#8) ∨
    (y.toNat < x.toNat ∧ compareFlags clears fl x y = (if clears then 0x00#8 else fl) ||| 0x02#8) ∨
    (x.toNat < y.toNat ∧ compareFlags clears fl x y = (if clears then 0x00#8 else fl) ||| 0x04#8) := by
  unfold compareFlags
  rcases Nat.lt_trichotomy x.toNat y.toNat with h | h | h
  · right; right; exact ⟨h, by simp [h, Nat.ne_of_lt h, Nat.lt_asymm h]⟩
  · left; exact ⟨h, by simp [h]⟩
  · right; left; exact ⟨h, by simp [h, Nat.ne_of_gt h, Nat.lt_asymm h]⟩

/-! ### CALL's return address -/

theorem returnAddress_ok {s : State} (h : s.pc.toNat + 2 ≤ 255) :
    s.returnAddress = .ok (BitVec.ofNat 8 (s.pc.toNat + 2)) := by
  rw [State.returnAddress, if_neg (by omega)]

theorem returnAddress_error {s : State} (h : 255 < s.pc.toNat + 2) :
    s.returnAddress = .error (.addressRange (s.pc.toNat + 2)) := by
  rw [State.returnAddress, if_pos h]

end Sys2Proof.Machine
end

