-- ==== Sys2Proof/Laws/Fetch.lean ====
section
/-! SUPPORT. The bytes a fetch reads, and what a fetch answers once the opcode is looked up. -/

namespace Sys2Proof.Machine

/-- Three bytes, two, one or none, as far as memory reaches above PC. -/
theorem fetchBytes_eq (s : State) : s.fetchBytes =
    if s.pc.toNat ≤ 253 then [s.cell s.pc.toNat, s.cell (s.pc.toNat + 1), s.cell (s.pc.toNat + 2)]
    else if s.pc.toNat ≤ 254 then [s.cell s.pc.toNat, s.cell (s.pc.toNat + 1)]
    else if s.pc.toNat ≤ 255 then [s.cell s.pc.toNat] else [] := by
  simp only [State.fetchBytes, State.bytesFrom, State.memRead, Nat.add_assoc]
  by_cases h1 : s.pc.toNat ≤ 253
  · rw [if_neg (by omega), if_neg (by omega), if_neg (by omega), if_pos h1]
  · rw [if_neg h1]
    by_cases h2 : s.pc.toNat ≤ 254
    · rw [if_neg (by omega), if_neg (by omega), if_pos (by omega), if_pos h2]
    · rw [if_neg h2]
      by_cases h3 : s.pc.toNat ≤ 255
      · rw [if_neg (by omega), if_pos (by omega), if_pos h3]
      · rw [if_pos (by omega), if_neg h3]

/-- The first byte fetched is that of the cell at PC, where there is one. -/
theorem fetchBytes_head {s : State} (h : s.pc.toNat ≤ 255) : ∃ bs, s.fetchBytes = s.cell s.pc.toNat :: bs := by
  rw [fetchBytes_eq]
  split
  · exact ⟨_, rfl⟩
  · split
    · exact ⟨_, rfl⟩
    · exact ⟨[], rfl⟩

/-- With an opcode of the table at PC, the fetch is what the operands give. -/
theorem fetch_of_lookup {s : State} (h : s.pc.toNat ≤ 255) {sh : Shape} (hs : lookup (s.cell s.pc.toNat) = some sh) :
    s.fetch = match takeOperands sh s.fetchBytes.tail with
      | .ok (i, _) => .ok i
      | .error e => .error (faultOf s.pc.toNat e) := by
  obtain ⟨bs, e⟩ := fetchBytes_head h
  cases ht : takeOperands sh bs <;> simp [State.fetch, e, decode, hs, ht]

end Sys2Proof.Machine
end

