-- ==== Sys2Proof/Laws/Step.lean ====
section
/-! SUPPORT. What an instruction and a step can do, said once; and an invariant of a step is an invariant of a run. -/

namespace Sys2Proof.Machine

/-- Every instruction answers a next state: its handler's, after the loop test, or a fault taken in the state before it. -/
theorem exec_total (i : Instr) (s : State) :
    (∃ t : State, exec i s = .next t.loopTest) ∨ ∃ f, exec i s = .next (s.raise f) := by
  have key (r : Except FaultRecord State) :
      (∃ t : State, s.settle r = .next t.loopTest) ∨ ∃ f, s.settle r = .next (s.raise f) := by
    rcases settle_cases s r with ⟨t, -, h⟩ | ⟨f, -, h⟩
    · exact .inl ⟨t, h⟩
    · exact .inr ⟨f, h⟩
  cases i with
  | hlt => exact .inl ⟨_, rfl⟩
  | _ => exact key _

section inversion
variable {s t : State}

/-- LDI: the register written, or the fault. -/
theorem execLdi_cases {a imm : Byte} (h : exec (.ldi a imm) s = .next t) :
    (∃ ra : Reg, a.toNat = ra ∧ t = ((s.writeReg ra imm).advance 3).loopTest) ∨ t = s.raise (.registerIndex a) := by
  simp only [exec, execLdi] at h
  by_cases ha : a.toNat < 8
  · rw [withReg_ok ha] at h
    cases h; exact .inl ⟨⟨a.toNat, ha⟩, rfl, rfl⟩
  · rw [withReg_error ha] at h
    cases h; exact .inr rfl

/-- PRN: the byte handed over, or the fault. -/
theorem execPrn_cases {a : Byte} (h : exec (.prn a) s = .next t) :
    (∃ ra : Reg, a.toNat = ra ∧ t = ((s.output s.regs[ra]).advance 2).loopTest) ∨ t = s.raise (.registerIndex a) := by
  simp only [exec, execPrn] at h
  by_cases ha : a.toNat < 8
  · rw [withReg_ok ha] at h
    cases h; exact .inl ⟨⟨a.toNat, ha⟩, rfl, rfl⟩
  · rw [withReg_error ha] at h
    cases h; exact .inr rfl

/-- ADD, MUL and CMP: the ALU's state, or the fault of the first illegal operand. -/
theorem withRegs_cases {a b : Byte} {f : Reg → Reg → State} (h : s.withRegs a b (fun ra rb => .ok (f ra rb)) = .next t) :
    (∃ ra rb : Reg, a.toNat = ra ∧ b.toNat = rb ∧ t = (f ra rb).loopTest) ∨ t = s.raise (.registerIndex a) ∨
      t = s.raise (.registerIndex b) := by
  by_cases ha : a.toNat < 8
  · by_cases hb : b.toNat < 8
    · rw [withRegs_ok ha hb] at h
      cases h; exact .inl ⟨⟨a.toNat, ha⟩, ⟨b.toNat, hb⟩, rfl, rfl, rfl⟩
    · rw [withRegs_error_second ha hb] at h
      cases h; exact .inr (.inr rfl)
  · rw [withRegs_error_first ha] at h
    cases h; exact .inr (.inl rfl)

/-- ADD. -/
theorem execAdd_cases {a b : Byte} (h : exec (.add a b) s = .next t) :
    (∃ ra rb : Reg, a.toNat = ra ∧ b.toNat = rb ∧
      t = ((s.writeReg ra (BitVec.ofNat 8 (s.regs[ra].toNat + s.regs[rb].toNat))).advance 3).loopTest) ∨
    t = s.raise (.registerIndex a) ∨ t = s.raise (.registerIndex b) := withRegs_cases h

/-- MUL. -/
theorem execMul_cases {a b : Byte} (h : exec (.mul a b) s = .next t) :
    (∃ ra rb : Reg, a.toNat = ra ∧ b.toNat = rb ∧
      t = ((s.writeReg ra (BitVec.ofNat 8 (s.regs[ra].toNat * s.regs[rb].toNat))).advance 3).loopTest) ∨
    t = s.raise (.registerIndex a) ∨ t = s.raise (.registerIndex b) := withRegs_cases h

/-- CMP. -/
theorem execCmp_cases {a b : Byte} (h : exec (.cmp a b) s = .next t) :
    (∃ ra rb : Reg, a.toNat = ra ∧ b.toNat = rb ∧
      t = ((s.setFl (compareFlags s.cfg.cmpClearsFl s.fl s.regs[ra] s.regs[rb])).advance 3).loopTest) ∨
    t = s.raise (.registerIndex a) ∨ t = s.raise (.registerIndex b) := withRegs_cases h

/-- PUSH: the byte stored is read from the state after the decrement. -/
theorem execPush_cases {a : Byte} (h : exec (.push a) s = .next t) :
    (∃ ra : Reg, a.toNat = ra ∧
      t = (((s.setSp (s.sp - 1)).setCell (s.sp - 1).toNat (s.setSp (s.sp - 1)).regs[ra]).advance 2).loopTest) ∨
    t = s.raise (.registerIndex a) := by
  simp only [exec, execPush] at h
  by_cases ha : a.toNat < 8
  · rw [withReg_ok ha, pushByte_eq] at h
    cases h; exact .inl ⟨⟨a.toNat, ha⟩, rfl, rfl⟩
  · rw [withReg_error ha] at h
    cases h; exact .inr rfl

/-- POP: the register is written first, then SP incremented. -/
theorem execPop_cases {a : Byte} (h : exec (.pop a) s = .next t) :
    (∃ ra : Reg, a.toNat = ra ∧ t = (((s.writeReg ra (s.cell s.sp.toNat)).dropByte).advance 2).loopTest) ∨
    t = s.raise (.registerIndex a) := by
  simp only [exec, execPop, topByte_eq] at h
  by_cases ha : a.toNat < 8
  · rw [withReg_ok ha] at h
    cases h; exact .inl ⟨⟨a.toNat, ha⟩, rfl, rfl⟩
  · rw [withReg_error ha] at h
    cases h; exact .inr rfl

/-- CALL: the push and the jump; or the fault of an illegal operand; or that of a return address that is no address. -/
theorem execCall_cases {a : Byte} (h : exec (.call a) s = .next t) :
    (∃ ra : Reg, a.toNat = ra ∧ s.pc.toNat + 2 ≤ 255 ∧
      t = (((s.setSp (s.sp - 1)).setCell (s.sp - 1).toNat (BitVec.ofNat 8 (s.pc.toNat + 2))).jump
        (s.setSp (s.sp - 1)).regs[ra]).loopTest) ∨
    t = s.raise (.registerIndex a) ∨ (255 < s.pc.toNat + 2 ∧ t = s.raise (.addressRange (s.pc.toNat + 2))) := by
  simp only [exec, execCall] at h
  by_cases ha : a.toNat < 8
  · rw [withReg_ok ha] at h
    by_cases hp : 255 < s.pc.toNat + 2
    · rw [returnAddress_error hp] at h
      cases h; exact .inr (.inr ⟨hp, rfl⟩)
    · simp only [returnAddress_ok (by omega : s.pc.toNat + 2 ≤ 255), pushByte_eq] at h
      cases h; exact .inl ⟨⟨a.toNat, ha⟩, rfl, by omega, rfl⟩
  · rw [withReg_error ha] at h
    cases h; exact .inr (.inl rfl)

/-- RET. -/
theorem execRet_cases (h : exec .ret s = .next t) : t = ((s.jump (s.cell s.sp.toNat)).dropByte).loopTest := by
  simp only [exec, execRet, topByte_eq] at h
  cases h; rfl

/-- HLT. -/
theorem execHlt_cases (h : exec .hlt s = .next t) : t = (s.stopRunning.advance 1).loopTest := by
  cases h; rfl

/-- JMP. -/
theorem execJmp_cases {a : Byte} (h : exec (.jmp a) s = .next t) :
    (∃ ra : Reg, a.toNat = ra ∧ t = (s.jump s.regs[ra]).loopTest) ∨ t = s.raise (.registerIndex a) := by
  simp only [exec, execJmp] at h
  by_cases ha : a.toNat < 8
  · rw [withReg_ok ha] at h
    cases h; exact .inl ⟨⟨a.toNat, ha⟩, rfl, rfl⟩
  · rw [withReg_error ha] at h
    cases h; exact .inr rfl

/-- JEQ. -/
theorem execJeq_cases {a : Byte} (h : exec (.jeq a) s = .next t) :
    (∃ ra : Reg, a.toNat = ra ∧ t = (if flagE s.fl then s.jump s.regs[ra] else s.advance 2).loopTest) ∨
    t = s.raise (.registerIndex a) := by
  simp only [exec, execJeq] at h
  by_cases ha : a.toNat < 8
  · rw [withReg_ok ha] at h
    cases h; exact .inl ⟨⟨a.toNat, ha⟩, rfl, rfl⟩
  · rw [withReg_error ha] at h
    cases h; exact .inr rfl

/-- JNE. -/
theorem execJne_cases {a : Byte} (h : exec (.jne a) s = .next t) :
    (∃ ra : Reg, a.toNat = ra ∧ t = (if flagE s.fl then s.advance 2 else s.jump s.regs[ra]).loopTest) ∨
    t = s.raise (.registerIndex a) := by
  simp only [exec, execJne] at h
  by_cases ha : a.toNat < 8
  · rw [withReg_ok ha] at h
    cases h; exact .inl ⟨⟨a.toNat, ha⟩, rfl, rfl⟩
  · rw [withReg_error ha] at h
    cases h; exact .inr rfl

end inversion

/-- The state an instruction leaves when it completes without a fault; one line per instruction. -/
def Completes (s t : State) : Instr → Prop
  | .hlt => t = (s.stopRunning.advance 1).loopTest
  | .ldi a imm => ∃ ra : Reg, a.toNat = ra ∧ t = ((s.writeReg ra imm).advance 3).loopTest
  | .prn a => ∃ ra : Reg, a.toNat = ra ∧ t = ((s.output s.regs[ra]).advance 2).loopTest
  | .add a b => ∃ ra rb : Reg, a.toNat = ra ∧ b.toNat = rb ∧
      t = ((s.writeReg ra (BitVec.ofNat 8 (s.regs[ra].toNat + s.regs[rb].toNat))).advance 3).loopTest
  | .mul a b => ∃ ra rb : Reg, a.toNat = ra ∧ b.toNat = rb ∧
      t = ((s.writeReg ra (BitVec.ofNat 8 (s.regs[ra].toNat * s.regs[rb].toNat))).advance 3).loopTest
  | .cmp a b => ∃ ra rb : Reg, a.toNat = ra ∧ b.toNat = rb ∧
      t = ((s.setFl (compareFlags s.cfg.cmpClearsFl s.fl s.regs[ra] s.regs[rb])).advance 3).loopTest
  | .push a => ∃ ra : Reg, a.toNat = ra ∧
      t = (((s.setSp (s.sp - 1)).setCell (s.sp - 1).toNat (s.setSp (s.sp - 1)).regs[ra]).advance 2).loopTest
  | .pop a => ∃ ra : Reg, a.toNat = ra ∧ t = (((s.writeReg ra (s.cell s.sp.toNat)).dropByte).advance 2).loopTest
  | .call a => ∃ ra : Reg, a.toNat = ra ∧ s.pc.toNat + 2 ≤ 255 ∧
      t = (((s.setSp (s.sp - 1)).setCell (s.sp - 1).toNat (BitVec.ofNat 8 (s.pc.toNat + 2))).jump
        (s.setSp (s.sp - 1)).regs[ra]).loopTest
  | .ret => t = ((s.jump (s.cell s.sp.toNat)).dropByte).loopTest
  | .jmp a => ∃ ra : Reg, a.toNat = ra ∧ t = (s.jump s.regs[ra]).loopTest
  | .jeq a => ∃ ra : Reg, a.toNat = ra ∧ t = (if flagE s.fl then s.jump s.regs[ra] else s.advance 2).loopTest
  | .jne a => ∃ ra : Reg, a.toNat = ra ∧ t = (if flagE s.fl then s.advance 2 else s.jump s.regs[ra]).loopTest

/-- All that executing an instruction can do: it completes, or a fault other than that of the ALU is taken. -/
theorem exec_cases {i : Instr} {s t : State} (h : exec i s = .next t) :
    Completes s t i ∨ ∃ f, t = s.raise f ∧ f ≠ .unsupportedAluOp := by
  have reg {v : Byte} (e : t = s.raise (.registerIndex v)) : ∃ f, t = s.raise f ∧ f ≠ .unsupportedAluOp :=
    ⟨.registerIndex v, e, nofun⟩
  cases i with
  | hlt => exact .inl (execHlt_cases h)
  | ret => exact .inl (execRet_cases h)
  | ldi a imm => exact (execLdi_cases h).imp id reg
  | prn a => exact (execPrn_cases h).imp id reg
  | add a b => exact (execAdd_cases h).imp id fun e => e.elim reg reg
  | mul a b => exact (execMul_cases h).imp id fun e => e.elim reg reg
  | cmp a b => exact (execCmp_cases h).imp id fun e => e.elim reg reg
  | push a => exact (execPush_cases h).imp id reg
  | pop a => exact (execPop_cases h).imp id reg
  | jmp a => exact (execJmp_cases h).imp id reg
  | jeq a => exact (execJeq_cases h).imp id reg
  | jne a => exact (execJne_cases h).imp id reg
  | call a => exact (execCall_cases h).imp id fun e => e.elim reg fun e => ⟨.addressRange _, e.2, nofun⟩

/-- The loop test leaves neither phase Faulted nor phase Loading. -/
theorem loopTest_phase_ne (u : State) : u.loopTest.phase ≠ .faulted ∧ u.loopTest.phase ≠ .loading := by
  rw [loopTest_phase]
  cases u.running <;> simp

/-- A step that answers a next state was enabled; it took a fault of the fetch, or executed the instruction at PC. -/
theorem step_cases {s t : State} (h : step s = .next t) :
    s.Enabled ∧ ((∃ f, s.fetch = .error f ∧ t = s.raise f) ∨ ∃ i, s.fetch = .ok i ∧ exec i s = .next t) := by
  unfold step at h
  split at h
  · cases h
  · rename_i hs
    refine ⟨(stopReason_eq_none s).1 hs, ?_⟩
    split at h
    · cases h; exact .inl ⟨_, ‹_›, rfl⟩
    · exact .inr ⟨_, ‹_›, h⟩

/-- An enabled step on a fetched instruction is `exec` of it. -/
theorem step_of_fetch_ok {s : State} (he : s.Enabled) {i : Instr} (hf : s.fetch = .ok i) : step s = exec i s := by
  rw [step, (stopReason_eq_none s).2 he]
  simp [hf]

/-- An enabled step whose fetch faults takes that fault. -/
theorem step_of_fetch_error {s : State} (he : s.Enabled) {f : FaultRecord} (hf : s.fetch = .error f) :
    step s = .next (s.raise f) := by
  rw [step, (stopReason_eq_none s).2 he]
  simp [hf]

/-- What a step keeps, a run keeps. -/
theorem run_keeps {P : State → Prop} (keep : ∀ s t, P s → step s = .next t → P t) (k : Nat) {s t : State}
    (hs : P s) (h : Host.Core.run Sys2Proof.core k s = .next t) : P t := by
  induction k generalizing s with
  | zero => cases h; exact hs
  | succ k ih =>
    simp only [Host.Core.run] at h
    split at h
    · exact ih (keep _ _ hs ‹_›) h
    · cases h
    · cases h

end Sys2Proof.Machine
end

