-- ==== Sys2Proof/Tests/Slice0.lean ====
section
/-! SUPPORT. Tests: words written out from the spec's encodings, ill-formed terms refused, single steps of
95_test_vectors.md, and a witness for the hypotheses of every statement that has some. -/

namespace Sys2Proof.Tests

open Sys2Proof.Machine Sys2Proof.Claims

/-! ### Helpers -/

/-- After reset, with bytes placed from `pc` up and PC there. -/
def start (pc : PcWord) (bytes : List Byte) : State :=
  { State.reset with pc := pc, mem := Memory.place [] pc.toNat bytes }

/-- The same with CMP_CLEARS_FL true. -/
def clearing (s : State) : State := { s with cfg := { cmpClearsFl := true } }

/-- The next state of a step; the state itself where there is none. -/
def next (s : State) : State :=
  match step s with
  | .next t => t
  | .fault _ => s
  | .refused _ => s

/-- The four general-purpose results most tests look at. -/
def ends (t : State) (pc : Nat) (phase : Phase) (fault : Option FaultRecord) : Bool :=
  decide (t.pc.toNat = pc) && decide (t.phase = phase) && decide (t.fault = fault)

/-! ### Decoding: every constructor, its word written out bit by bit from R51, R56 and R60's table -/

theorem test_decode_hlt : decode [0b00000001#8] = .ok (.hlt, []) := rfl
theorem test_decode_ldi : decode [0b10000010#8, 0b00000110#8, 0b11111111#8] = .ok (.ldi 6#8 255#8, []) := rfl
theorem test_decode_prn : decode [0b01000111#8, 0b00000101#8] = .ok (.prn 5#8, []) := rfl
theorem test_decode_add : decode [0b10100000#8, 0b00000010#8, 0b00000111#8] = .ok (.add 2#8 7#8, []) := rfl
theorem test_decode_mul : decode [0b10100010#8, 0b00000001#8, 0b00000100#8] = .ok (.mul 1#8 4#8, []) := rfl
theorem test_decode_push : decode [0b01000101#8, 0b00000011#8] = .ok (.push 3#8, []) := rfl
theorem test_decode_pop : decode [0b01000110#8, 0b00000100#8] = .ok (.pop 4#8, []) := rfl
theorem test_decode_call : decode [0b01010000#8, 0b00000001#8] = .ok (.call 1#8, []) := rfl
theorem test_decode_ret : decode [0b00010001#8, 0b10000010#8] = .ok (.ret, [0b10000010#8]) := rfl
theorem test_decode_cmp : decode [0b10100111#8, 0b00000101#8, 0b00000000#8] = .ok (.cmp 5#8 0#8, []) := rfl
theorem test_decode_jmp : decode [0b01010100#8, 0b00000010#8] = .ok (.jmp 2#8, []) := rfl
theorem test_decode_jeq : decode [0b01010101#8, 0b00000110#8] = .ok (.jeq 6#8, []) := rfl
theorem test_decode_jne : decode [0b01010110#8, 0b00000111#8] = .ok (.jne 7#8, []) := rfl

/-- V-DEC-14 to V-DEC-18: memory not loaded, width 4, and the neighbours of defined opcodes. -/
theorem test_decode_unknown :
    [0x00#8, 0x83#8, 0xC1#8, 0xFF#8, 0x02#8, 0x10#8, 0x44#8, 0x48#8, 0x51#8, 0x57#8, 0xA1#8, 0xA8#8].all
      (fun op => lookup op |>.isNone) = true := by decide

/-- A table word's bits count from the opcode byte up: LDI R1, 2 is 0x020182; bits at or above `nbits` are 0. -/
theorem test_tableWord :
    decodeTableWord 24 0x020182 = some (.ldi 1#8 2#8) ∧ decodeTableWord 8 0xFFFFA7 = some (.cmp 0#8 0#8) ∧
    decodeTableWord 24 0x08A0 = none := ⟨rfl, rfl, rfl⟩

/-! ### Well-formedness: an ill-formed term for each check -/

theorem test_wellFormed_ldi : (Instr.ldi 8#8 0#8).WellFormed = false ∧ (Instr.ldi 7#8 255#8).WellFormed = true := by decide
theorem test_wellFormed_prn : (Instr.prn 8#8).WellFormed = false := by decide
theorem test_wellFormed_add : (Instr.add 8#8 0#8).WellFormed = false ∧ (Instr.add 0#8 9#8).WellFormed = false := by decide
theorem test_wellFormed_mul : (Instr.mul 255#8 0#8).WellFormed = false ∧ (Instr.mul 0#8 8#8).WellFormed = false := by decide
theorem test_wellFormed_cmp : (Instr.cmp 8#8 0#8).WellFormed = false ∧ (Instr.cmp 7#8 8#8).WellFormed = false := by decide
theorem test_wellFormed_push : (Instr.push 8#8).WellFormed = false := by decide
theorem test_wellFormed_pop : (Instr.pop 128#8).WellFormed = false := by decide
theorem test_wellFormed_call : (Instr.call 8#8).WellFormed = false := by decide
theorem test_wellFormed_jmp : (Instr.jmp 8#8).WellFormed = false := by decide
theorem test_wellFormed_jeq : (Instr.jeq 16#8).WellFormed = false := by decide
theorem test_wellFormed_jne : (Instr.jne 8#8).WellFormed = false := by decide

/-! ### Single steps, from 95_test_vectors.md -/

/-- V-BAS-6: HLT at 255 leaves PC at 256 and no fault. -/
theorem test_hlt_at_top : let t := next (start 255#9 [0x01#8]); ends t 256 .halted none ∧ t.running = false := by decide

/-- V-BAS-9 and V-FLT-6. -/
theorem test_ldi : let t := next (start 0#9 [0x82#8, 0x00#8, 0xFF#8]); ends t 3 .running none ∧ t.regs[0] = 0xFF#8 := by
  decide

/-- V-FLT-3: the register of LDI is checked. -/
theorem test_ldi_register : next (start 0#9 [0x82#8, 0x08#8, 0x01#8]) =
    (start 0#9 [0x82#8, 0x08#8, 0x01#8]).raise (.registerIndex 8#8) := by decide

/-- V-BAS-7: PRN R7 prints the stack pointer; R82's rendering is a decimal numeral and a newline. -/
theorem test_prn_sp : let t := next (start 0#9 [0x47#8, 0x07#8])
    ends t 2 .running none ∧ t.out = [244#8] ∧ t.text = ['2', '4', '4', '\n'] := by decide

/-- V-ADD-2. -/
theorem test_add_truncates : let t := next (((start 0#9 [0xA0#8, 0x00#8, 0x01#8]).writeReg 0 250#8).writeReg 1 10#8)
    ends t 3 .running none ∧ t.regs[0] = 4#8 ∧ t.regs[1] = 10#8 := by decide

/-- V-ADD-12: R7 as the second operand of ADD. -/
theorem test_add_sp : let t := next ((start 0#9 [0xA0#8, 0x00#8, 0x07#8]).writeReg 0 1#8)
    t.regs[0] = 0xF5#8 ∧ t.regs[7] = 0xF4#8 := by decide

/-- V-MUL-3. -/
theorem test_mul_truncates : let t := next (((start 0#9 [0xA2#8, 0x00#8, 0x01#8]).writeReg 0 200#8).writeReg 1 3#8)
    ends t 3 .running none ∧ t.regs[0] = 88#8 := by decide

/-- V-MUL-11: one register twice. -/
theorem test_mul_square : (next ((start 0#9 [0xA2#8, 0x00#8, 0x00#8]).writeReg 0 17#8)).regs[0] = 33#8 := by decide

/-- V-CMP-5 for both values of CMP_CLEARS_FL. -/
theorem test_cmp_parameter :
    let s := { ((start 0#9 [0xA7#8, 0x00#8, 0x01#8]).writeReg 0 3#8).writeReg 1 3#8 with fl := 0x04#8 }
    (next s).fl = 0x05#8 ∧ (next (clearing s)).fl = 0x01#8 ∧ (next s).pc = 3#9 := by decide

/-- V-CMP-13: the order of the operands. -/
theorem test_cmp_order :
    (next (((start 0#9 [0xA7#8, 0x01#8, 0x00#8]).writeReg 0 255#8).writeReg 1 1#8)).fl = 0x04#8 := by decide

/-- V-STK-1. -/
theorem test_push : let t := next ((start 9#9 [0x45#8, 0x00#8]).writeReg 0 88#8)
    ends t 11 .running none ∧ t.regs[7] = 0xF3#8 ∧ t.cell 0xF3 = 88#8 ∧ t.regs[0] = 88#8 := by decide

/-- V-STK-4: PUSH R7 pushes the decremented stack pointer. -/
theorem test_push_sp : let t := next (start 0#9 [0x45#8, 0x07#8]); t.regs[7] = 0xF3#8 ∧ t.cell 0xF3 = 0xF3#8 := by decide

/-- V-STK-2. -/
theorem test_pop : let t := next (((start 11#9 [0x46#8, 0x02#8]).writeReg 7 0xF3#8).setCell 0xF3 88#8)
    ends t 13 .running none ∧ t.regs[2] = 88#8 ∧ t.regs[7] = 0xF4#8 ∧ t.cell 0xF3 = 88#8 := by decide

/-- V-STK-5, its last step: POP R7 leaves the loaded byte plus one. -/
theorem test_pop_sp : (next (((start 5#9 [0x46#8, 0x07#8]).writeReg 7 0xF3#8).setCell 0xF3 0x10#8)).regs[7] = 0x11#8 := by
  decide

/-- V-CTL-1. -/
theorem test_call : let t := next ((start 6#9 [0x50#8, 0x01#8]).writeReg 1 11#8)
    ends t 11 .running none ∧ t.regs[7] = 0xF3#8 ∧ t.cell 0xF3 = 8#8 := by decide

/-- V-CTL-6: the return address of a CALL at 254 is no address, and nothing of the CALL happens. -/
theorem test_call_at_top : next (start 254#9 [0x50#8, 0x01#8]) =
    (start 254#9 [0x50#8, 0x01#8]).raise (.addressRange 256) := by decide

/-- V-CTL-2. -/
theorem test_ret : let t := next (((start 14#9 [0x11#8]).writeReg 7 0xF3#8).setCell 0xF3 8#8)
    ends t 8 .running none ∧ t.regs[7] = 0xF4#8 ∧ t.cell 0xF3 = 8#8 := by decide

/-- V-CTL-3. -/
theorem test_jmp : ends (next ((start 15#9 [0x54#8, 0x02#8]).writeReg 2 19#8)) 19 .running none := by decide

/-- V-BR-4 and V-BR-5. -/
theorem test_jeq : let s := (start 15#9 [0x55#8, 0x02#8]).writeReg 2 19#8
    (next (s.setFl 0x05#8)).pc = 19#9 ∧ (next (s.setFl 0x06#8)).pc = 17#9 := by decide

/-- V-FLT-7: the operand of a JEQ that would not be taken is still checked. -/
theorem test_jeq_register : ends (next (start 0#9 [0x55#8, 0x08#8])) 0 .faulted (some (.registerIndex 8#8)) := by decide

/-- V-BR-6 and V-BR-8. -/
theorem test_jne : let s := (start 15#9 [0x56#8, 0x02#8]).writeReg 2 19#8
    (next (s.setFl 0x01#8)).pc = 17#9 ∧ (next s).pc = 19#9 := by decide

/-- V-BR-11: a JNE not taken at 254 leaves PC at 256, where the next fetch faults. -/
theorem test_jne_at_top : let s := (start 254#9 [0x56#8, 0x01#8]).setFl 0x01#8
    ends (next s) 256 .running none ∧ ends (next (next s)) 256 .faulted (some (.addressRange 256)) := by decide

/-- V-FLT-5, V-FLT-8, V-FLT-9, V-FLT-11 and V-FLT-12: which fault comes first. -/
theorem test_fault_priority :
    (next (start 0#9 [0xA0#8, 0x0C#8, 0x09#8])).fault = some (.registerIndex 12#8) ∧
    (next (start 254#9 [0x82#8, 0x01#8])).fault = some (.addressRange 256) ∧
    (next (start 255#9 [0x47#8])).fault = some (.addressRange 256) ∧
    (next (start 255#9 [0xC1#8])).fault = some (.unknownInstruction 0xC1#8) ∧
    (next (start 255#9 [0xA0#8])).fault = some (.addressRange 256) := by decide

/-- V-FLT-13: no step after the end. -/
theorem test_no_step_after_end :
    step (next (start 0#9 [0x01#8])) = .fault .stepAfterHalt ∧ step (next (start 0#9 [])) = .fault .stepAfterFault :=
  ⟨rfl, rfl⟩

/-- The word is fetched at PC and run first, from reset. -/
theorem test_withFetchWord : next (State.reset.withFetchWord 24 0x2A0082) = next (start 0#9 [0x82#8, 0x00#8, 0x2A#8]) := by
  decide

/-- Writing a cell keeps the list in order; writing what an unlisted cell reads as removes the entry (log 6). -/
theorem test_memory_canonical :
    Memory.set [(1, 5#8), (9, 6#8)] 4 7#8 = [(1, 5#8), (4, 7#8), (9, 6#8)] ∧
    Memory.set [(1, 5#8), (9, 6#8)] 9 0#8 = [(1, 5#8)] ∧ Memory.wf [(9, 6#8), (1, 5#8)] = false ∧
    Memory.wf [(256, 1#8)] = false ∧ Memory.wf [(3, 0#8)] = false := by decide

/-! ### Witnesses: states and operands that meet the hypotheses of the statements -/

/-- A running machine: reset, one step taken. -/
def running (pc : PcWord) (bytes : List Byte) : State := { start pc bytes with phase := .running }

/-- A state of a run meets the invariant. -/
theorem running_inv : (running 0#9 [0x01#8]).Inv :=
  ⟨by decide, by decide, by decide, by decide, by decide⟩

theorem enabled_running (pc : PcWord) (bytes : List Byte) : (running pc bytes).Enabled := .inr rfl

theorem witness_DecodeOfEncodeIsInstruction :
    (Instr.add 7#8 0#8).WellFormed = true ∧ (Instr.add 7#8 8#8).WellFormed = false := by decide

theorem witness_DecodedBytesAreTheEncoding :
    decode [0xA0#8, 0x07#8, 0x00#8, 0xFF#8] = .ok (.add 7#8 0#8, [0xFF#8]) := rfl

theorem witness_LengthFromTopTwoOpcodeBits : decode (0x01#8 :: [0x82#8]) = .ok (.hlt, [0x82#8]) ∧
    decode (0x56#8 :: [0x07#8]) = .ok (.jne 7#8, []) ∧ decode (0xA7#8 :: [0x00#8, 0x07#8]) = .ok (.cmp 0#8 7#8, []) :=
  ⟨rfl, rfl, rfl⟩

theorem witness_OtherOpcodesAreUnknown : 0xC1#8 ∉ thirteenOpcodes ∧ 0x56#8 ∈ thirteenOpcodes ∧
    (running 255#9 [0xC1#8]).Enabled ∧ (running 255#9 [0xC1#8]).pc.toNat ≤ 255 ∧
    opcodeAt (running 255#9 [0xC1#8]) ∉ thirteenOpcodes :=
  ⟨by decide, by decide, .inr rfl, by decide, by decide⟩

theorem witness_StepRunsDecodedInstruction : (running 254#9 [0x47#8, 0x07#8]).Enabled ∧
    decode (running 254#9 [0x47#8, 0x07#8]).fetchBytes = .ok (.prn 7#8, []) ∧
    decode (running 254#9 [0x82#8, 0x07#8]).fetchBytes = .error (.missingByte 2) :=
  ⟨.inr rfl, rfl, rfl⟩

theorem witness_StepRunsStoredEncoding : (running 254#9 [0x47#8, 0x07#8]).Enabled ∧ (Instr.prn 7#8).WellFormed = true ∧
    ∀ (k : Nat) (hk : k < (encode (.prn 7#8)).length), (running 254#9 [0x47#8, 0x07#8]).pc.toNat + k ≤ 255 ∧
      (running 254#9 [0x47#8, 0x07#8]).cell ((running 254#9 [0x47#8, 0x07#8]).pc.toNat + k) = (encode (.prn 7#8))[k] :=
  ⟨.inr rfl, by decide, by decide⟩

theorem witness_StepEnabledInLoadingAndRunning : (running 0#9 [0x01#8]).Inv ∧
    step (running 0#9 [0x01#8]) = .next (next (running 0#9 [0x01#8])) := ⟨running_inv, rfl⟩

theorem witness_StepAfterTheEndStops : (next (start 0#9 [0x01#8])).phase = .halted ∧
    (next (start 0#9 [])).phase = .faulted := by decide

/-- One state for each of the seven clauses, at the boundary of its range, and one for the last. -/
theorem witness_FaultPriority :
    255 < (running 256#9 []).pc.toNat ∧
    (let s := running 255#9 [0xC1#8]; s.pc.toNat ≤ 255 ∧ opcodeAt s ∉ thirteenOpcodes) ∧
    (let s := running 255#9 [0x47#8]; s.pc.toNat ≤ 255 ∧ opcodeAt s ∈ thirteenOpcodes ∧ 1 ≤ topTwoBits (opcodeAt s) ∧
      255 < s.pc.toNat + 1) ∧
    (let s := running 254#9 [0xA0#8, 0x08#8]; s.pc.toNat + 1 ≤ 255 ∧ opcodeAt s ∈ thirteenOpcodes ∧
      topTwoBits (opcodeAt s) = 2 ∧ 255 < s.pc.toNat + 2) ∧
    (let s := running 253#9 [0xA0#8, 0x08#8, 0x09#8]; s.pc.toNat + topTwoBits (opcodeAt s) ≤ 255 ∧
      opcodeAt s ∈ thirteenOpcodes ∧ 1 ≤ topTwoBits (opcodeAt s) ∧ 7 < (operandA s).toNat) ∧
    (let s := running 253#9 [0xA0#8, 0x07#8, 0x08#8]; s.pc.toNat + 2 ≤ 255 ∧ opcodeAt s ∈ thirteenOpcodes ∧
      topTwoBits (opcodeAt s) = 2 ∧ opcodeAt s ≠ 0x82#8 ∧ (operandA s).toNat ≤ 7 ∧ 7 < (operandB s).toNat) ∧
    (let s := running 254#9 [0x50#8, 0x07#8]; s.pc.toNat + 1 ≤ 255 ∧ opcodeAt s = 0x50#8 ∧ (operandA s).toNat ≤ 7 ∧
      255 < s.pc.toNat + 2) := by decide

theorem witness_FaultPriority_first :
    step (running 0#9 []) = .next ((running 0#9 []).raise (.unknownInstruction 0#8)) := rfl

theorem witness_UnknownInstructionFault : (running 255#9 [0xFF#8]).Enabled ∧
    step (running 255#9 [0xFF#8]) = .next ((running 255#9 [0xFF#8]).raise (.unknownInstruction 0xFF#8)) := ⟨.inr rfl, rfl⟩

/-- Each of the four cases. -/
theorem witness_AddressRangeExactCases : (running 256#9 []).Enabled ∧ (running 256#9 []).pc.toNat ≤ 256 ∧
    (let s := running 255#9 [0x45#8]; s.pc.toNat = 255 ∧ opcodeAt s ∈ thirteenOpcodes ∧ 1 ≤ topTwoBits (opcodeAt s)) ∧
    (let s := running 254#9 [0x82#8]; s.pc.toNat = 254 ∧ opcodeAt s ∈ thirteenOpcodes ∧ topTwoBits (opcodeAt s) = 2) ∧
    (let s := running 254#9 [0x50#8, 0x07#8]; s.pc.toNat = 254 ∧ opcodeAt s = 0x50#8 ∧ (operandA s).toNat ≤ 7) :=
  ⟨.inr rfl, by decide, by decide, by decide, by decide⟩

theorem witness_RegisterOperandChecks : 7 < (8#8).toNat ∧ (7#8).toNat ≤ 7 := by decide

/-- The second clause's premise is met where the record holds that fault already, in a state no run reaches. -/
theorem witness_UnsupportedAluOpNeverRaised : let s := { running 0#9 [0x01#8] with fault := some .unsupportedAluOp }
    step s = .next (next s) ∧ (next s).fault = some .unsupportedAluOp := ⟨rfl, by decide⟩

theorem witness_FaultEntryIsPrecise : step (running 0#9 [0x82#8, 0x08#8]) = .next (next (running 0#9 [0x82#8, 0x08#8])) ∧
    (next (running 0#9 [0x82#8, 0x08#8])).phase = .faulted := ⟨rfl, by decide⟩

theorem witness_HltClearsRunning : (running 255#9 [0x01#8]).Enabled ∧ (running 255#9 [0x01#8]).pc.toNat ≤ 255 ∧
    opcodeAt (running 255#9 [0x01#8]) = 0x01#8 ∧ (running 256#9 []).Enabled ∧ (running 256#9 []).pc.toNat = 256 ∧
    (running 255#9 [0x01#8]).running = true ∧ step (running 255#9 [0x01#8]) = .next (next (running 255#9 [0x01#8])) ∧
    (next (running 255#9 [0x01#8])).phase = .halted :=
  ⟨.inr rfl, by decide, by decide, .inr rfl, by decide, rfl, rfl, by decide⟩

/-- The premises of the result statements R81 to R99: a running machine, and register operands at both ends of their range. -/
theorem witness_results : (running 0#9 []).running = true ∧ (0#8).toNat < 8 ∧ (7#8).toNat < 8 ∧ 7 < (8#8).toNat ∧
    7 < (255#8).toNat := by decide

/-- The premises of `OperandFetchFaults`, for one operand at 255 and for two at 254 and at 255. -/
theorem witness_OperandFetchFaults : (running 255#9 [0x47#8]).Enabled ∧
    (let s := running 255#9 [0x47#8]; s.pc.toNat ≤ 255 ∧ opcodeAt s = 0x47#8 ∧ 255 < s.pc.toNat + 1) ∧
    (let s := running 254#9 [0x82#8]; s.pc.toNat ≤ 255 ∧ opcodeAt s = 0x82#8 ∧ 255 < s.pc.toNat + 2) ∧
    (let s := running 255#9 [0xA7#8]; s.pc.toNat ≤ 255 ∧ opcodeAt s = 0xA7#8 ∧ 255 < s.pc.toNat + 2) :=
  ⟨.inr rfl, by decide, by decide, by decide⟩

/-- CMP's three cases, each with its bit. -/
theorem witness_CmpSetsOneFlag : let s := (running 0#9 []).writeReg 0 255#8
    (s.regs[(1#8).toNat].toNat = s.regs[(1#8).toNat].toNat) ∧ (s.regs[(0#8).toNat].toNat > s.regs[(1#8).toNat].toNat) ∧
    (s.regs[(1#8).toNat].toNat < s.regs[(0#8).toNat].toNat) := by decide

/-- CALL at 253, the last address it can complete from, and at 254, the first it cannot. -/
theorem witness_CallPushesReturnAddress : (running 253#9 []).pc.toNat + 2 ≤ 255 ∧ 255 < (running 254#9 []).pc.toNat + 2 := by
  decide

theorem witness_RetPopsProgramCounter : (running 255#9 [0x11#8]).Enabled ∧ (running 255#9 [0x11#8]).pc.toNat ≤ 255 ∧
    opcodeAt (running 255#9 [0x11#8]) = 0x11#8 ∧ (running 256#9 []).pc.toNat = 256 := ⟨.inr rfl, by decide, by decide, by decide⟩

/-- Both outcomes of E, for JEQ and JNE. -/
theorem witness_branches : ((running 0#9 []).setFl 0x01#8).fl.getLsbD 0 = true ∧ (running 0#9 []).fl.getLsbD 0 = false := by
  decide

theorem witness_FrameOfLdiAddMul :
    ∃ t u v, exec (.ldi 0#8 1#8) (running 0#9 []) = .next t ∧ exec (.add 0#8 1#8) (running 0#9 []) = .next u ∧
      exec (.mul 0#8 1#8) (running 0#9 []) = .next v ∧ t.phase ≠ .faulted ∧ u.phase ≠ .faulted ∧ v.phase ≠ .faulted :=
  ⟨_, _, _, rfl, rfl, rfl, by decide, by decide, by decide⟩

theorem witness_FrameOfHltPrnCmpAndJumps :
    [Instr.hlt, .prn 7#8, .cmp 7#8 0#8, .jmp 7#8, .jeq 7#8, .jne 7#8].all
      (fun i => match exec i (running 0#9 []) with | .next t => decide (t.phase ≠ .faulted) | _ => false) = true := by decide

theorem witness_FrameOfPopAndRet :
    [Instr.pop 7#8, .pop 0#8, .ret].all
      (fun i => match exec i (running 0#9 []) with | .next t => decide (t.phase ≠ .faulted) | _ => false) = true := by decide

theorem witness_FrameOfPushAndCall :
    [Instr.push 7#8, .push 0#8, .call 7#8, .call 0#8].all
      (fun i => match exec i (running 0#9 []) with | .next t => decide (t.phase ≠ .faulted) | _ => false) = true := by decide

/-- A register outside both columns of R12's table, one only read, one written but not read, one both. -/
theorem witness_RegisterAccessTable : 3 ∉ registersRead 0#8 (.add 0#8 1#8) ∧ 3 ∉ registersWritten (.add 0#8 1#8) ∧
    1 ∉ registersWritten (.add 0#8 1#8) ∧ 0 ∉ registersRead 0#8 (.pop 0#8) ∧ 0 ∈ registersWritten (.pop 0#8) ∧
    exec (.add 0#8 1#8) (running 0#9 [0xA0#8, 0x00#8, 0x01#8]) = .next (next (running 0#9 [0xA0#8, 0x00#8, 0x01#8])) :=
  ⟨by decide, by decide, by decide, by decide, by decide, rfl⟩

theorem witness_OnlyCmpWritesFlags : ∃ t, exec (.cmp 0#8 0#8) (running 0#9 []) = .next t ∧ t.fl ≠ (running 0#9 []).fl ∧
    (0x07#8).getLsbD 0 = ((running 0#9 []).setFl 0x01#8).fl.getLsbD 0 :=
  ⟨_, rfl, by decide, by decide⟩

theorem witness_OnlyHltClearsRunning : ∃ t u, exec .hlt (running 0#9 []) = .next t ∧ t.running = false ∧
    step (running 0#9 [0x01#8]) = .next u ∧ u.running = false := ⟨_, _, rfl, by decide, rfl, by decide⟩

theorem witness_OnlyPrnAppendsOutput : ∃ t, exec (.prn 7#8) (running 0#9 []) = .next t ∧ t.out ≠ (running 0#9 []).out :=
  ⟨_, rfl, by decide⟩

theorem witness_OnlyPopAndRetReadData : 0xF3 ≠ (running 0#9 []).sp.toNat := by decide

/-- For an advance that ends at 256, and for each of the five that set PC. -/
theorem witness_ProgramCounterAdvance :
    (∃ t, exec (.prn 7#8) (running 254#9 []) = .next t ∧ t.phase ≠ .faulted ∧ advancedByDispatcher (.prn 7#8) = true ∧
      (running 254#9 []).pc.toNat + (1 + topTwoBits (Instr.prn 7#8).opcode) ≤ 256) ∧
    [Instr.call 7#8, .jmp 7#8, .jeq 7#8, .jne 7#8, .ret].all
      (fun i => match exec i (running 253#9 []) with | .next t => decide (t.phase ≠ .faulted) | _ => false) = true :=
  ⟨⟨_, rfl, by decide, rfl, by decide⟩, by decide⟩

theorem witness_ProgramCounterBound : let s := running 253#9 [0x82#8, 0x01#8, 0x07#8]
    step s = .next (next s) ∧ (next s).phase ≠ .faulted ∧ (next s).pc.toNat = 256 := ⟨rfl, by decide, by decide⟩

theorem witness_PhaseTransitions : step (running 0#9 [0x01#8]) = .next (next (running 0#9 [0x01#8])) ∧
    (running 0#9 [0x01#8]).Inv ∧ (next (start 0#9 [0x01#8])).phase = .halted ∧ (next (start 0#9 [])).phase = .faulted :=
  ⟨rfl, running_inv, by decide, by decide⟩

theorem witness_ParameterNeverChanges :
    step (clearing (running 0#9 [0x01#8])) = .next (next (clearing (running 0#9 [0x01#8]))) := rfl

theorem witness_StickyFlagsStaySet : let s := (running 0#9 [0xA7#8, 0x00#8, 0x07#8]).setFl 0x01#8
    s.cfg.cmpClearsFl = false ∧ step s = .next (next s) ∧ s.fl.getLsbD 0 = true ∧
    (∃ t, exec (.jeq 7#8) s = .next t) ∧ ∃ t, exec (.jne 7#8) s = .next t :=
  ⟨rfl, rfl, by decide, ⟨_, rfl⟩, ⟨_, rfl⟩⟩

theorem witness_ClearedFlagsAreOneHot : let s := clearing ((running 0#9 [0xA7#8, 0x00#8, 0x07#8]).setFl 0x01#8)
    s.cfg.cmpClearsFl = true ∧ s.FlOneHot ∧ step s = .next (next s) := ⟨rfl, .inr (.inl rfl), rfl⟩

/-- On either side of the last address. -/
theorem witness_MemoryPrimitives : Memory.wf (running 0#9 [0x01#8]).mem = true ∧ 255 < 256 ∧ 255 ≤ 255 := by decide

theorem witness_CanonicalMemoryIsExtensional : Memory.wf [(0, 1#8), (255, 2#8)] = true ∧
    (∀ a, a ≤ 255 → Memory.get [(0, 1#8), (255, 2#8)] a = Memory.get [(0, 1#8), (255, 2#8)] a) :=
  ⟨by decide, fun _ _ => rfl⟩

/-- V-STK-10: PUSH R0 at 6, with R0 = 1 and SP = 9, stores HLT at 8. -/
theorem witness_StoredByteIsFetched : let s := ((running 6#9 [0x45#8]).writeReg 7 9#8).writeReg 0 0x01#8
    (0#8).toNat < 8 ∧ Memory.wf s.mem = true ∧ s.running = true ∧ s.pc.toNat + 2 = (s.regs[7] - 1#8).toNat ∧
    0x01#8 = (if (0#8).toNat = 7 then s.regs[7] - 1#8 else s.regs[(0#8).toNat]) := by decide

/-- Across the wrap of the stack pointer at 0. -/
theorem witness_PushThenPopRoundTrip : let s := (running 0#9 [0x45#8]).writeReg 7 0#8
    (0#8).toNat < 7 ∧ (6#8).toNat < 7 ∧ Memory.wf s.mem = true ∧ s.running = true := by decide

/-- From 253, the last address a CALL completes from. -/
theorem witness_CallThenRetReturns : let s := running 253#9 [0x50#8, 0x07#8]
    ∃ t, exec (.call 7#8) s = .next t ∧ (7#8).toNat < 8 ∧ Memory.wf s.mem = true ∧ s.pc.toNat + 2 ≤ 255 ∧
      t.regs[7] = t.regs[7] ∧ t.cell t.regs[7].toNat = t.cell t.regs[7].toNat :=
  ⟨_, rfl, by decide, by decide, by decide, rfl, rfl⟩

theorem witness_StackPointerIsRegisterSeven : (6#8).toNat < 7 ∧ Memory.wf (running 0#9 [0x82#8]).mem = true ∧
    (running 0#9 [0x82#8]).running = true := by decide

theorem witness_OperandOrder : (0#8).toNat < 8 ∧ (7#8).toNat < 8 ∧ (running 0#9 []).fl = 0#8 := by decide

theorem witness_ExactlyOneBranchTaken : (7#8).toNat < 8 := by decide

/-- An empty program and one of a single byte; cells on both sides of its end. -/
theorem witness_LoadedProgram : ([] : List Byte).length ≤ 256 ∧ [0x01#8].length ≤ 256 ∧ 0 < [0x01#8].length ∧
    [0x01#8].length ≤ 1 ∧ 255 ≤ 255 := by decide

theorem witness_EveryStepKeepsInvariant : (running 0#9 [0x01#8]).Inv ∧
    step (running 0#9 [0x01#8]) = .next (next (running 0#9 [0x01#8])) := ⟨running_inv, rfl⟩

end Sys2Proof.Tests
end

/-! ### What an instruction does, as an equation

`Completes` says in which state an instruction ends when it completes. Here are the other direction, and that an instruction
which does not complete takes a fault fixed by its operands and PC: two states with one PC complete or fault alike. -/

namespace Sys2Proof.Machine

theorem withReg_of_reg (s : State) {a : Byte} {ra : Reg} (ha : a.toNat = ra) (f : Reg → Except FaultRecord State) :
    s.withReg a f = s.settle (f ra) := by
  rw [withReg_ok (ha ▸ ra.isLt)]
  simp only [ha]

theorem withRegs_of_regs (s : State) {a b : Byte} {ra rb : Reg} (ha : a.toNat = ra) (hb : b.toNat = rb)
    (f : Reg → Reg → Except FaultRecord State) : s.withRegs a b f = s.settle (f ra rb) := by
  rw [withRegs_ok (ha ▸ ra.isLt) (hb ▸ rb.isLt)]
  simp only [ha, hb]

/-- The converse of `exec_cases` for an instruction that completes. -/
theorem exec_of_completes {i : Instr} {s t : State} (h : Completes s t i) : exec i s = .next t := by
  cases i with
  | hlt => cases h; rfl
  | ldi a _ | prn a | jmp a | jeq a | jne a => obtain ⟨ra, ha, rfl⟩ := h; exact withReg_of_reg s ha _
  | add a b | mul a b | cmp a b => obtain ⟨ra, rb, ha, hb, rfl⟩ := h; exact withRegs_of_regs s ha hb _
  | push a => obtain ⟨ra, ha, rfl⟩ := h; rw [exec, execPush, withReg_of_reg s ha, pushByte_eq]; rfl
  | pop a => obtain ⟨ra, ha, rfl⟩ := h; rw [exec, execPop, withReg_of_reg s ha, topByte_eq]; rfl
  | call a =>
    obtain ⟨ra, ha, hpc, rfl⟩ := h
    simp only [exec, execCall, withReg_of_reg s ha, returnAddress_ok hpc, pushByte_eq]
    rfl
  | ret => cases h; rw [exec, execRet, topByte_eq]; rfl

/-- In every state with this PC the instruction takes the fault `f`. -/
def FaultsAtPc (i : Instr) (pc : PcWord) (f : FaultRecord) : Prop :=
  ∀ s : State, s.pc = pc → exec i s = .next (s.raise f)

/-- An instruction completes, or takes a fault that no part of the state but PC decides. -/
theorem completes_or_faultsAtPc (i : Instr) (s : State) :
    (∃ t, Completes s t i) ∨ ∃ f, FaultsAtPc i s.pc f := by
  -- The check of one operand, and of two, in front of an instruction's handler.
  have one {i : Instr} {a : Byte} {f : State → Reg → Except FaultRecord State}
      (hi : ∀ u, exec i u = u.withReg a (f u)) : (∃ ra : Reg, a.toNat = ra) ∨ ∃ f, FaultsAtPc i s.pc f := by
    by_cases ha : a.toNat < 8
    · exact .inl ⟨⟨_, ha⟩, rfl⟩
    · exact .inr ⟨_, fun u _ => (hi u).trans (withReg_error ha _)⟩
  have two {i : Instr} {a b : Byte} {f : State → Reg → Reg → Except FaultRecord State}
      (hi : ∀ u, exec i u = u.withRegs a b (f u)) :
      (∃ ra rb : Reg, a.toNat = ra ∧ b.toNat = rb) ∨ ∃ f, FaultsAtPc i s.pc f := by
    by_cases ha : a.toNat < 8
    · by_cases hb : b.toNat < 8
      · exact .inl ⟨⟨_, ha⟩, ⟨_, hb⟩, rfl, rfl⟩
      · exact .inr ⟨_, fun u _ => (hi u).trans (withRegs_error_second ha hb _)⟩
    · exact .inr ⟨_, fun u _ => (hi u).trans (withRegs_error_first ha _)⟩
  cases i with
  | hlt | ret => exact .inl ⟨_, rfl⟩
  | ldi a _ | prn a | push a | pop a | jmp a | jeq a | jne a =>
    exact (one fun _ => rfl).imp_left fun ⟨ra, ha⟩ => ⟨_, ra, ha, rfl⟩
  | add a b | mul a b | cmp a b =>
    exact (two fun _ => rfl).imp_left fun ⟨ra, rb, ha, hb⟩ => ⟨_, ra, rb, ha, hb, rfl⟩
  | call a =>
    rcases one (i := .call a) fun _ => rfl with ⟨ra, ha⟩ | hf
    · by_cases hpc : s.pc.toNat + 2 ≤ 255
      · exact .inl ⟨_, ra, ha, hpc, rfl⟩
      · refine .inr ⟨.addressRange (s.pc.toNat + 2), fun u hu => ?_⟩
        rw [exec, execCall, withReg_of_reg u ha, returnAddress_error (by rw [hu]; omega), hu]
        rfl
    · exact .inr hf

/-- Two states with one PC: seen through `g` and `g'`, the outcomes of an instruction agree, if they do where it completes
and in the states that take a fault. -/
theorem onNext_exec_eq {i : Instr} {s s' : State} {g g' : State → State} (hpc : s'.pc = s.pc)
    (hraise : ∀ f, g' (s'.raise f) = g (s.raise f))
    (hok : ∀ t, Completes s t i → ∃ t', Completes s' t' i ∧ g' t' = g t) :
    Claims.onNext g' (exec i s') = Claims.onNext g (exec i s) := by
  rcases completes_or_faultsAtPc i s with ⟨t, ht⟩ | ⟨f, hf⟩
  · obtain ⟨t', ht', e⟩ := hok t ht
    rw [exec_of_completes ht, exec_of_completes ht', Claims.onNext, Claims.onNext, e]
  · rw [hf s rfl, hf s' hpc, Claims.onNext, Claims.onNext, hraise]

theorem onNext_id (o : Host.Outcome State Fault Refusal) : Claims.onNext id o = o := by
  cases o <;> rfl

/-- A change `g` of the state that leaves PC alone is carried through an instruction, if it is where the instruction
completes and in the state that takes a fault. -/
theorem exec_eq_onNext {i : Instr} {s s' : State} {g : State → State} (hpc : s'.pc = s.pc)
    (hraise : ∀ f, s'.raise f = g (s.raise f)) (hok : ∀ t, Completes s t i → Completes s' (g t) i) :
    exec i s' = Claims.onNext g (exec i s) := by
  rw [← onNext_id (exec i s')]
  exact onNext_exec_eq hpc hraise fun t ht => ⟨g t, hok t ht, rfl⟩

/-! ### Writes to different registers -/

theorem regs_writeReg_other (s : State) {r q : Reg} (h : r ≠ q) (v : Byte) : (s.writeReg r v).regs[q] = s.regs[q] :=
  readReg_writeReg_other s r q v h

theorem writeReg_writeReg_same (s : State) (r : Reg) (v w : Byte) : (s.writeReg r v).writeReg r w = s.writeReg r w := by
  simp [State.writeReg]

theorem writeReg_comm (s : State) {r q : Reg} (h : r ≠ q) (v w : Byte) :
    (s.writeReg r v).writeReg q w = (s.writeReg q w).writeReg r v := by
  have : r.val ≠ q.val := fun e => h (Fin.ext e)
  simp [State.writeReg, Vector.set_comm _ _ this]

theorem cell_writeReg (s : State) (r : Reg) (v : Byte) (a : Nat) : (s.writeReg r v).cell a = s.cell a := rfl

theorem jump_writeReg (s : State) (r : Reg) (v w : Byte) : (s.writeReg r v).jump w = (s.jump w).writeReg r v := rfl

theorem sp_writeReg (s : State) {r : Reg} (h : r ≠ spReg) (v : Byte) : (s.writeReg r v).sp = s.sp :=
  readReg_writeReg_other s r spReg v h

theorem setSp_writeReg (s : State) {r : Reg} (h : r ≠ spReg) (v w : Byte) :
    (s.writeReg r v).setSp w = (s.setSp w).writeReg r v := writeReg_comm s h v w

theorem dropByte_writeReg (s : State) {r : Reg} (h : r ≠ spReg) (v : Byte) :
    (s.writeReg r v).dropByte = s.dropByte.writeReg r v := by
  rw [State.dropByte, sp_writeReg s h, setSp_writeReg s h]
  rfl

/-! ### R12: the register access table -/

open Claims

/-- A register that is not in a list of register numbers differs from one whose number is. -/
theorem reg_ne_of_not_mem {r q : Reg} {n : Nat} {l : List Nat} (hr : r.val ∉ l) (hn : n = q) (hq : n ∈ l) : r ≠ q := by
  rintro rfl
  exact hr (hn ▸ hq)

/-- A register outside the column "written" keeps its byte when the instruction completes. -/
theorem Completes.regs_of_not_written {i : Instr} {s t : State} (h : Completes s t i) {r : Reg}
    (hw : r.val ∉ registersWritten i) : t.regs[r] = s.regs[r] := by
  -- `r` is none of the registers that the table says are written.
  have written {q : Reg} {n : Nat} (hn : n = q) (hq : n ∈ registersWritten i) : q ≠ r :=
    (reg_ne_of_not_mem hw hn hq).symm
  cases i with
  | hlt => cases h; rfl
  | prn a | jmp a => obtain ⟨ra, -, rfl⟩ := h; rfl
  | cmp a b => obtain ⟨ra, rb, -, -, rfl⟩ := h; rfl
  | jeq a | jne a => obtain ⟨ra, -, rfl⟩ := h; split <;> rfl
  | ldi a imm =>
    obtain ⟨ra, ha, rfl⟩ := h
    exact regs_writeReg_other s (written ha (by simp [registersWritten])) _
  | add a b | mul a b =>
    obtain ⟨ra, rb, ha, -, rfl⟩ := h
    exact regs_writeReg_other s (written ha (by simp [registersWritten])) _
  | push a =>
    obtain ⟨ra, -, rfl⟩ := h
    exact regs_writeReg_other s (written rfl (by simp [registersWritten, spReg]) : spReg ≠ r) _
  | call a =>
    obtain ⟨ra, -, -, rfl⟩ := h
    exact regs_writeReg_other s (written rfl (by simp [registersWritten, spReg]) : spReg ≠ r) _
  | ret =>
    cases h
    exact regs_writeReg_other s (written rfl (by simp [registersWritten, spReg]) : spReg ≠ r) _
  | pop a =>
    obtain ⟨ra, ha, rfl⟩ := h
    have hra : ra ≠ r := written ha (by simp [registersWritten])
    have hsp : spReg ≠ r := written rfl (by simp [registersWritten, spReg])
    exact (regs_writeReg_other (s.writeReg ra _) hsp _).trans (regs_writeReg_other s hra _)

/-- To an instruction that completes, a register outside both columns is frame: a byte put there before stands there after,
and nothing else differs. -/
theorem Completes.writeReg_of_not_accessed {i : Instr} {s t : State} (h : Completes s t i) {r : Reg} (v : Byte)
    (hr : r.val ∉ registersRead s.fl i) (hw : r.val ∉ registersWritten i) :
    Completes (s.writeReg r v) (t.writeReg r v) i := by
  -- `r` is none of the registers that the table names for the instruction.
  have read {q : Reg} {n : Nat} := reg_ne_of_not_mem (q := q) (n := n) hr
  have written {q : Reg} {n : Nat} := reg_ne_of_not_mem (q := q) (n := n) hw
  cases i with
  | hlt => cases h; exact rfl
  | ldi a imm =>
    obtain ⟨ra, ha, rfl⟩ := h
    have hra : r ≠ ra := written ha (by simp [registersWritten])
    exact ⟨ra, ha, by rw [writeReg_comm s hra]; rfl⟩
  | prn a =>
    obtain ⟨ra, ha, rfl⟩ := h
    have hra : r ≠ ra := read ha (by simp [registersRead])
    exact ⟨ra, ha, by rw [regs_writeReg_other s hra]; rfl⟩
  | add a b | mul a b =>
    obtain ⟨ra, rb, ha, hb, rfl⟩ := h
    have hra : r ≠ ra := read ha (by simp [registersRead])
    have hrb : r ≠ rb := read hb (by simp [registersRead])
    exact ⟨ra, rb, ha, hb, by rw [regs_writeReg_other s hra, regs_writeReg_other s hrb, writeReg_comm s hra]; rfl⟩
  | cmp a b =>
    obtain ⟨ra, rb, ha, hb, rfl⟩ := h
    have hra : r ≠ ra := read ha (by simp [registersRead])
    have hrb : r ≠ rb := read hb (by simp [registersRead])
    exact ⟨ra, rb, ha, hb, by rw [regs_writeReg_other s hra, regs_writeReg_other s hrb]; rfl⟩
  | push a =>
    obtain ⟨ra, ha, rfl⟩ := h
    have hra : r ≠ ra := read ha (by simp [registersRead])
    have hsp : r ≠ spReg := read rfl (by simp [registersRead, spReg])
    refine ⟨ra, ha, ?_⟩
    rw [sp_writeReg s hsp, setSp_writeReg s hsp, regs_writeReg_other _ hra]
    rfl
  | pop a =>
    obtain ⟨ra, ha, rfl⟩ := h
    have hra : r ≠ ra := written ha (by simp [registersWritten])
    have hsp : r ≠ spReg := read rfl (by simp [registersRead, spReg])
    refine ⟨ra, ha, ?_⟩
    rw [sp_writeReg s hsp, writeReg_comm s hra, cell_writeReg, dropByte_writeReg _ hsp]
    rfl
  | call a =>
    obtain ⟨ra, ha, hpc, rfl⟩ := h
    have hra : r ≠ ra := read ha (by simp [registersRead])
    have hsp : r ≠ spReg := read rfl (by simp [registersRead, spReg])
    refine ⟨ra, ha, hpc, ?_⟩
    rw [sp_writeReg s hsp, setSp_writeReg s hsp, regs_writeReg_other _ hra]
    rfl
  | ret =>
    cases h
    have hsp : r ≠ spReg := read rfl (by simp [registersRead, spReg])
    change _ = _
    rw [sp_writeReg s hsp, cell_writeReg, jump_writeReg, dropByte_writeReg _ hsp]
    rfl
  | jmp a =>
    obtain ⟨ra, ha, rfl⟩ := h
    have hra : r ≠ ra := read ha (by simp [registersRead])
    exact ⟨ra, ha, by rw [regs_writeReg_other s hra]; rfl⟩
  | jeq a =>
    obtain ⟨ra, ha, rfl⟩ := h
    refine ⟨ra, ha, ?_⟩
    rw [writeReg_fl]
    by_cases hE : flagE s.fl
    · have hra : r ≠ ra := read ha (by simpa [registersRead, flagE] using hE)
      rw [if_pos hE, if_pos hE, regs_writeReg_other s hra]; rfl
    · rw [if_neg hE, if_neg hE]; rfl
  | jne a =>
    obtain ⟨ra, ha, rfl⟩ := h
    refine ⟨ra, ha, ?_⟩
    rw [writeReg_fl]
    by_cases hE : flagE s.fl
    · rw [if_pos hE, if_pos hE]; rfl
    · have hra : r ≠ ra := read ha (by simpa [registersRead, flagE] using hE)
      rw [if_neg hE, if_neg hE, regs_writeReg_other s hra]; rfl

/-- Only LDI and POP write a register that they do not read. -/
theorem ldi_or_pop_of_written_not_read {i : Instr} {fl : Byte} {r : Nat} (hw : r ∈ registersWritten i)
    (hr : r ∉ registersRead fl i) :
    (∃ a imm, i = .ldi a imm ∧ a.toNat = r) ∨ ∃ a, i = .pop a ∧ a.toNat = r ∧ r ≠ 7 := by
  cases i with
  | ldi a imm => exact .inl ⟨a, imm, rfl, (List.mem_singleton.1 hw).symm⟩
  | pop a =>
    have h7 : r ≠ 7 := by simpa [registersRead] using hr
    have ha : r = a.toNat := by simpa [registersWritten, h7] using hw
    exact .inr ⟨a, rfl, ha.symm, h7⟩
  | hlt | prn _ | cmp _ _ | jmp _ | jeq _ | jne _ => simp [registersWritten] at hw
  | add _ _ | mul _ _ | push _ | call _ | ret =>
    refine absurd ?_ hr
    rw [List.mem_singleton.1 hw]
    exact List.mem_cons_self

/-- What a register held that the instruction overwrites without reading it makes no difference. -/
theorem exec_writeReg_of_overwritten {i : Instr} {s : State} {r : Reg} (v : Byte) (hw : r.val ∈ registersWritten i)
    (hr : r.val ∉ registersRead s.fl i) : exec i (s.writeReg r v) = exec i s := by
  obtain ⟨a, imm, rfl, ha⟩ | ⟨a, rfl, ha, h7⟩ := ldi_or_pop_of_written_not_read hw hr
  · have old : Completes s ((s.writeReg r imm).advance 3).loopTest (.ldi a imm) := ⟨r, ha, rfl⟩
    have new : Completes (s.writeReg r v) ((s.writeReg r imm).advance 3).loopTest (.ldi a imm) :=
      ⟨r, ha, by rw [writeReg_writeReg_same]⟩
    rw [exec_of_completes new, exec_of_completes old]
  · have hsp : r ≠ spReg := fun e => h7 (congrArg Fin.val e)
    have old : Completes s (((s.writeReg r (s.cell s.sp.toNat)).dropByte).advance 2).loopTest (.pop a) := ⟨r, ha, rfl⟩
    have new : Completes (s.writeReg r v) (((s.writeReg r (s.cell s.sp.toNat)).dropByte).advance 2).loopTest (.pop a) :=
      ⟨r, ha, by rw [writeReg_writeReg_same, sp_writeReg s hsp, cell_writeReg]⟩
    rw [exec_of_completes new, exec_of_completes old]

/-- Settles O34. The first half is `Completes.regs_of_not_written`, a fault leaving every register; the second is the frame
lemma `Completes.writeReg_of_not_accessed` and, for the two instructions that overwrite a register unread,
`exec_writeReg_of_overwritten`. -/
theorem registerAccessTable : Obligations.RegisterAccessTable := by
  refine ⟨fun i s t h r hlt hw => ?_, fun i s r v hr => ⟨fun hw => ?_, fun hw => ?_⟩⟩
  · obtain hok | ⟨f, rfl, -⟩ := exec_cases h
    · exact hok.regs_of_not_written (r := ⟨r, hlt⟩) hw
    · rfl
  · exact exec_eq_onNext (g := fun t => t.writeReg r v) rfl (fun _ => rfl) fun t ht =>
      ht.writeReg_of_not_accessed v hr hw
  · exact exec_writeReg_of_overwritten v hw hr

/-! ### R17: the running flag -/

/-- HLT clears the running flag; an instruction other than HLT leaves it. -/
theorem Completes.running {i : Instr} {s t : State} (h : Completes s t i) :
    t.running = s.running ∨ (i = .hlt ∧ t.running = false) := by
  cases i with
  | hlt => cases h; exact .inr ⟨rfl, rfl⟩
  | ret => cases h; exact .inl rfl
  | ldi a _ | prn a | push a | pop a | jmp a => obtain ⟨ra, -, rfl⟩ := h; exact .inl rfl
  | add a b | mul a b | cmp a b => obtain ⟨ra, rb, -, -, rfl⟩ := h; exact .inl rfl
  | call a => obtain ⟨ra, -, -, rfl⟩ := h; exact .inl rfl
  | jeq a | jne a => obtain ⟨ra, -, rfl⟩ := h; left; split <;> rfl

theorem exec_running {i : Instr} {s t : State} (h : exec i s = .next t) :
    t.running = s.running ∨ (i = .hlt ∧ t.running = false) := by
  obtain hok | ⟨f, rfl, -⟩ := exec_cases h
  · exact hok.running
  · exact .inl rfl

/-- The state without its running flag and the phase that the loop test sets from it. -/
def State.forgetRunning (t : State) : State := { t with running := true, phase := .running }

/-- An instruction that completes does so whatever the running flag was, and leaves all else the same. -/
theorem Completes.forget_running {i : Instr} {s t : State} (h : Completes s t i) (r : Bool) :
    ∃ t', Completes { s with running := r } t' i ∧ t'.forgetRunning = t.forgetRunning := by
  cases i with
  | hlt | ret => cases h; exact ⟨_, rfl, rfl⟩
  | ldi a _ | prn a | push a | pop a | jmp a => obtain ⟨ra, ha, rfl⟩ := h; exact ⟨_, ⟨ra, ha, rfl⟩, rfl⟩
  | add a b | mul a b | cmp a b => obtain ⟨ra, rb, ha, hb, rfl⟩ := h; exact ⟨_, ⟨ra, rb, ha, hb, rfl⟩, rfl⟩
  | call a => obtain ⟨ra, ha, hpc, rfl⟩ := h; exact ⟨_, ⟨ra, ha, hpc, rfl⟩, rfl⟩
  | jeq a | jne a => obtain ⟨ra, ha, rfl⟩ := h; exact ⟨_, ⟨ra, ha, rfl⟩, by dsimp only; split <;> rfl⟩

/-- A step ends in the loop test of R71, or in a fault taken in the state it began in. -/
theorem step_ends {s t : State} (h : step s = .next t) : (∃ u : State, t = u.loopTest) ∨ ∃ f, t = s.raise f := by
  obtain ⟨-, ⟨f, -, rfl⟩ | ⟨i, -, hi⟩⟩ := step_cases h
  · exact .inr ⟨f, rfl⟩
  · rcases exec_total i s with ⟨u, hu⟩ | ⟨f, hf⟩
    · exact .inl ⟨u, by rw [hu] at hi; cases hi; rfl⟩
    · exact .inr ⟨f, by rw [hf] at hi; cases hi; rfl⟩

/-- A step never sets the running flag (R17). -/
theorem step_running_of_stopped {s t : State} (h : step s = .next t) (hs : s.running = false) : t.running = false := by
  obtain ⟨-, ⟨f, -, rfl⟩ | ⟨i, -, hi⟩⟩ := step_cases h
  · exact hs
  · exact (exec_running hi).elim (·.trans hs) And.right

/-- What a step leaves with the running flag clear takes no step: the loop test has put it in phase Halted, or a fault in
phase Faulted (R70). -/
theorem not_enabled_of_stopped {s t : State} (h : step s = .next t) (ht : t.running = false) : ¬ t.Enabled := by
  obtain ⟨u, rfl⟩ | ⟨f, rfl⟩ := step_ends h
  · simp [State.Enabled, show u.running = false from ht]
  · simp [State.Enabled]

/-- Settles O36. That no instruction's effect depends on the flag is `Completes.forget_running`: a fault is taken or not
whatever the flag. -/
theorem onlyHltClearsRunning : Obligations.OnlyHltClearsRunning := by
  refine ⟨rfl, fun i s t h => exec_running h, fun i s r => ?_,
    fun s t h => ⟨step_running_of_stopped h, fun ht u hu => ?_⟩⟩
  · exact onNext_exec_eq (g := State.forgetRunning) (g' := State.forgetRunning) rfl (fun _ => rfl) fun t ht =>
      ht.forget_running r
  · exact not_enabled_of_stopped h ht (step_cases hu).1

end Sys2Proof.Machine

/-! ### The opcode table read in both directions

`Shape.Fits` ties a row of the table to the encoder. With it a decoding is inverted once, whatever the row: the bytes are the
encoding of what they decode to, and the rest. -/

namespace Sys2Proof

open Claims

/-- The instructions of a format are encoded with this opcode, followed by the operand bytes in order (R51). -/
def Shape.Fits (op : Byte) : Shape → Prop
  | .f0 i => encode i = [op]
  | .f1 mk => ∀ a, encode (mk a) = [op, a]
  | .f2 mk => ∀ a b, encode (mk a b) = [op, a, b]

/-- The table and the encoder agree on each of the thirteen rows (R56). -/
theorem fits_of_mem_opcodeTable : ∀ row ∈ opcodeTable, row.2.Fits row.1 := by
  simp [opcodeTable, Shape.Fits, encode, Instr.opcode, Instr.operands]

/-- The register check passes the instruction on, so bytes that encode it encode what the check answers. -/
theorem checkOperands_ok_of_bytes {i j : Instr} {bs tail rest : List Byte} (hbytes : bs = encode j ++ tail)
    (h : checkOperands j tail = .ok (i, rest)) : i.WellFormed = true ∧ bs = encode i ++ rest := by
  obtain ⟨rfl, rfl, hw⟩ := checkOperands_ok h
  exact ⟨hw, hbytes⟩

/-- Operands taken after an opcode give a well-formed instruction whose encoding is that opcode and those operands. -/
theorem takeOperands_ok {op : Byte} {sh : Shape} {bs rest : List Byte} {i : Instr} (hfit : sh.Fits op)
    (h : takeOperands sh bs = .ok (i, rest)) : i.WellFormed = true ∧ op :: bs = encode i ++ rest := by
  match sh, bs, h with
  | .f0 _, _, h => exact checkOperands_ok_of_bytes (by rw [hfit]; rfl) h
  | .f1 _, _ :: _, h => exact checkOperands_ok_of_bytes (by rw [hfit]; rfl) h
  | .f2 _, _ :: _ :: _, h => exact checkOperands_ok_of_bytes (by rw [hfit]; rfl) h

/-- What decodes is the encoding of a well-formed instruction, followed by the rest. -/
theorem decode_ok {bs rest : List Byte} {i : Instr} (h : decode bs = .ok (i, rest)) :
    i.WellFormed = true ∧ bs = encode i ++ rest := by
  cases bs with
  | nil => cases h
  | cons op bs =>
    rw [decode] at h
    split at h
    · cases h
    · exact takeOperands_ok (fits_of_mem_opcodeTable _ (lookup_mem ‹_›)) h

/-- An instruction has as many operand bytes as its opcode's top two bits say (R50). -/
theorem operands_length (i : Instr) : i.operands.length = topTwoBits i.opcode := by
  cases i <;> simp [Instr.operands, Instr.opcode, topTwoBits]

theorem encode_length (i : Instr) : (encode i).length = 1 + topTwoBits i.opcode := by
  rw [encode, List.length_cons, operands_length, Nat.add_comm]

theorem operands_length_le (i : Instr) : i.operands.length ≤ 2 := by
  cases i <;> simp [Instr.operands]

/-- Settles O3. The decoder's half is the encoder's, because what decodes is an encoding (`decode_ok`) and begins with the
opcode. -/
theorem lengthFromTopTwoOpcodeBits : Obligations.LengthFromTopTwoOpcodeBits := by
  refine ⟨fun i => ⟨rfl, encode_length i, Nat.succ_le_succ (operands_length_le i)⟩, fun op bs i rest h => ?_⟩
  obtain ⟨-, hbytes⟩ := decode_ok h
  have hop : op = i.opcode := (List.cons.inj hbytes).1
  rw [hbytes, List.length_append, encode_length, hop]

/-! ### Bytes that are no opcode (R58) -/

/-- A table has no row for an opcode exactly when the opcode heads none of its rows. -/
theorem lookupIn_eq_none (rows : List (Byte × Shape)) (op : Byte) :
    lookupIn rows op = none ↔ op ∉ rows.map Prod.fst := by
  induction rows with
  | nil => simp [lookupIn]
  | cons row rows ih =>
    by_cases h : row.1 = op
    · simp [lookupIn, h]
    · simp [lookupIn, h, ih, Ne.symm h]

/-- The opcode table has no row for a byte exactly when it is none of the thirteen. -/
theorem lookup_eq_none (op : Byte) : lookup op = none ↔ op ∉ thirteenOpcodes := lookupIn_eq_none opcodeTable op

theorem decode_unknown {op : Byte} (h : op ∉ thirteenOpcodes) (rest : List Byte) :
    decode (op :: rest) = .error (.unknownOpcode op) := by
  rw [decode, (lookup_eq_none op).2 h]

/-- One instruction of each opcode, in the order of R56's table, with register 0 for every register operand. -/
def oneOfEach : List Instr :=
  [.hlt, .ldi 0 0, .prn 0, .add 0 0, .mul 0 0, .push 0, .pop 0, .call 0, .ret, .cmp 0 0, .jmp 0, .jeq 0, .jne 0]

theorem map_opcode_oneOfEach : oneOfEach.map Instr.opcode = thirteenOpcodes := rfl

theorem wellFormed_of_mem_oneOfEach : ∀ i ∈ oneOfEach, i.WellFormed = true := by decide

/-- Each of the thirteen opcodes is that of a well-formed instruction. -/
theorem exists_wellFormed_of_mem {op : Byte} (h : op ∈ thirteenOpcodes) :
    ∃ i : Instr, i.WellFormed = true ∧ i.opcode = op := by
  rw [← map_opcode_oneOfEach] at h
  obtain ⟨i, hi, hop⟩ := List.mem_map.1 h
  exact ⟨i, wellFormed_of_mem_oneOfEach i hi, hop⟩

/-- The 256 byte values, in rising order. -/
def allBytes : List Byte := (List.range 256).map (BitVec.ofNat 8)

theorem mem_allBytes (op : Byte) : op ∈ allBytes :=
  List.mem_map.2 ⟨op.toNat, List.mem_range.2 op.isLt, BitVec.ofNat_toNat 8 op⟩

theorem allBytes_nodup : allBytes.Nodup := by
  refine List.nodup_range.map_on fun x hx y hy h => ?_
  rw [List.mem_range] at hx hy
  have hmod := congrArg BitVec.toNat h
  rwa [BitVec.toNat_ofNat, BitVec.toNat_ofNat, Nat.mod_eq_of_lt hx, Nat.mod_eq_of_lt hy] at hmod

/-- The opcodes among the 256 bytes are the thirteen, each once. -/
theorem filter_opcodes_perm : (allBytes.filter thirteenOpcodes.contains).Perm thirteenOpcodes :=
  (List.perm_ext_iff_of_nodup (allBytes_nodup.filter _) (by decide)).2 fun op => by
    simp [List.mem_filter, mem_allBytes]

/-- 243 of the 256 bytes are none of the thirteen opcodes (R58). -/
theorem count_unknownOpcodes : (allBytes.filter fun op => !thirteenOpcodes.contains op).length = 243 := by
  have hsum := List.length_eq_length_filter_add (l := allBytes) thirteenOpcodes.contains
  have hall : allBytes.length = 256 := by simp [allBytes]
  have hopcodes : (allBytes.filter thirteenOpcodes.contains).length = 13 := filter_opcodes_perm.length_eq
  omega

end Sys2Proof

/-! ### What a state in phase Faulted tells (R107) -/

namespace Sys2Proof.Machine

open Claims

/-- EXIT_FAULT is not 0, whatever its sign and magnitude (R107, log 9). -/
theorem exitFault_ne_zero : Config.exitFault ≠ 0 := by
  unfold Config.exitFault
  split <;> omega

theorem raise_diagnostic (s : State) (f : FaultRecord) : (s.raise f).diagnostic = some f := rfl

theorem raise_exitStatus (s : State) (f : FaultRecord) : (s.raise f).exitStatus = some Config.exitFault := rfl

/-- A fault is terminal: no step is enabled after it (R70, R108). -/
theorem step_raise_ne_next (s : State) (f : FaultRecord) (t : State) : step (s.raise f) ≠ .next t := by
  intro h
  simpa [State.Enabled] using (step_cases h).1

/-- With a byte at PC that is no opcode, the fetch is refused whatever follows it. -/
theorem fetch_unknown {s : State} (hpc : s.pc.toNat ≤ 255) (h : opcodeAt s ∉ thirteenOpcodes) :
    s.fetch = .error (.unknownInstruction (opcodeAt s)) := by
  obtain ⟨bs, hbytes⟩ := fetchBytes_head hpc
  have hdec : decode s.fetchBytes = .error (.unknownOpcode (opcodeAt s)) := by
    rw [hbytes]
    exact decode_unknown h bs
  rw [State.fetch, hdec]
  rfl

/-- Settles O4. The decoder's refusal is the table's (`lookup_eq_none`), and the step takes it as a fault. -/
theorem otherOpcodesAreUnknown : Obligations.OtherOpcodesAreUnknown := by
  refine ⟨fun op rest h => decode_unknown h rest, fun op h => exists_wellFormed_of_mem h, count_unknownOpcodes,
    fun s he hpc h => step_of_fetch_error he (fetch_unknown hpc h), ?_⟩
  rintro s _ op rfl
  exact ⟨raise_diagnostic s _, ⟨_, raise_exitStatus s _, exitFault_ne_zero⟩, step_raise_ne_next s _⟩

end Sys2Proof.Machine

/-! ### When a step exists (R70) -/

namespace Sys2Proof.Machine

/-- An enabled step answers a next state: the fault of the fetch, or what executing the instruction leaves. -/
theorem exists_step_of_enabled {s : State} (he : s.Enabled) : ∃ t, step s = .next t := by
  cases hf : s.fetch with
  | error f => exact ⟨_, step_of_fetch_error he hf⟩
  | ok i =>
    rw [step_of_fetch_ok he hf]
    obtain ⟨t, ht⟩ | ⟨f, ht⟩ := exec_total i s
    · exact ⟨_, ht⟩
    · exact ⟨_, ht⟩

theorem exists_step_iff_enabled (s : State) : (∃ t, step s = .next t) ↔ s.Enabled :=
  ⟨fun ⟨_, h⟩ => (step_cases h).1, exists_step_of_enabled⟩

/-- On the machine's own states the phase only says what the running flag and the fault record say (R18, R21). -/
theorem State.Inv.enabled_iff {s : State} (h : s.Inv) : s.Enabled ↔ s.running = true ∧ s.fault = none := by
  have running_iff : s.running = true ↔ s.phase ≠ .halted := by simp [h.halted_iff]
  have no_fault_iff : s.fault = none ↔ s.phase ≠ .faulted := by simp [h.faulted_iff]
  rw [running_iff, no_fault_iff, State.Enabled]
  cases s.phase <;> simp

theorem step_phase_ne_loading {s t : State} (h : step s = .next t) : t.phase ≠ .loading := by
  obtain ⟨u, rfl⟩ | ⟨f, rfl⟩ := step_ends h
  · exact (loopTest_phase_ne u).2
  · simp

/-- Settles O9. The three parts are `exists_step_iff_enabled`, `State.Inv.enabled_iff` and `step_phase_ne_loading`. -/
theorem stepEnabledInLoadingAndRunning : Obligations.StepEnabledInLoadingAndRunning := fun s =>
  ⟨exists_step_iff_enabled s, State.Inv.enabled_iff, fun _ => step_phase_ne_loading⟩

/-! ### What an instruction leaves in PC (R72) -/

open Claims

/-- The dispatcher's addition does not wrap before the value past the end of memory (R13, R72). -/
theorem advance_pc_toNat {s : State} {w : Nat} (h : s.pc.toNat + w ≤ 256) :
    (s.advance w).pc.toNat = s.pc.toNat + w := by
  rw [advance_pc, BitVec.toNat_ofNat]
  omega

theorem advance_pc_eq_add (s : State) (w : Nat) : (s.advance w).pc = s.pc + BitVec.ofNat 9 w := by
  rw [advance_pc, BitVec.ofNat_add, BitVec.ofNat_toNat, BitVec.setWidth_eq]

theorem jump_pc_toNat (s : State) (v : Byte) : (s.jump v).pc.toNat = v.toNat := by
  rw [jump_pc, BitVec.toNat_setWidth_of_le (by decide)]

/-- The register of a legal operand is the one that `Completes` names. -/
theorem regs_toNat_eq {a : Byte} {ra : Reg} (ha : a.toNat = ra) (regs : Vector Byte 8) (h : a.toNat < 8) :
    regs[a.toNat] = regs[ra] := by
  simp [ha]

namespace Completes

variable {s t : State} {a : Byte}

/-- The eight instructions that leave PC to the dispatcher are followed by its advance over their bytes. -/
theorem pc_of_advanced {i : Instr} (h : Completes s t i) (hi : advancedByDispatcher i = true) :
    t.pc = (s.advance (encode i).length).pc := by
  cases i with
  | hlt => cases h; rfl
  | ldi a _ | prn a | push a | pop a => obtain ⟨ra, -, rfl⟩ := h; rfl
  | add a b | mul a b | cmp a b => obtain ⟨ra, rb, -, -, rfl⟩ := h; rfl
  | call a | ret | jmp a | jeq a | jne a => cases hi

/-- CALL reads its register after the push, so its target is a register of the state it leaves. -/
theorem pc_of_call (h : Completes s t (.call a)) (ha : a.toNat < 8) : t.pc.toNat = t.regs[a.toNat].toNat := by
  obtain ⟨ra, hra, -, rfl⟩ := h
  rw [regs_toNat_eq hra]
  exact jump_pc_toNat s _

theorem pc_of_jmp (h : Completes s t (.jmp a)) (ha : a.toNat < 8) : t.pc.toNat = s.regs[a.toNat].toNat := by
  obtain ⟨ra, hra, rfl⟩ := h
  rw [regs_toNat_eq hra]
  exact jump_pc_toNat s _

theorem pc_of_ret (h : Completes s t .ret) : t.pc.toNat = (s.cell s.sp.toNat).toNat := by
  cases h
  exact jump_pc_toNat s _

/-- JEQ (R98), with the target of the branch it takes. -/
theorem pc_of_jeq (h : Completes s t (.jeq a)) (ha : a.toNat < 8) :
    if flagE s.fl then t.pc.toNat = s.regs[a.toNat].toNat else t.pc = s.pc + 2#9 := by
  obtain ⟨ra, hra, rfl⟩ := h
  rw [regs_toNat_eq hra]
  split
  · exact jump_pc_toNat s _
  · exact advance_pc_eq_add s 2

/-- JNE (R99), with the target of the branch it takes. -/
theorem pc_of_jne (h : Completes s t (.jne a)) (ha : a.toNat < 8) :
    if flagE s.fl then t.pc = s.pc + 2#9 else t.pc.toNat = s.regs[a.toNat].toNat := by
  obtain ⟨ra, hra, rfl⟩ := h
  rw [regs_toNat_eq hra]
  split
  · exact advance_pc_eq_add s 2
  · exact jump_pc_toNat s _

end Completes

/-- An instruction that does not end in phase Faulted completes. -/
theorem completes_of_exec {i : Instr} {s t : State} (h : exec i s = .next t) (ht : t.phase ≠ .faulted) :
    Completes s t i := by
  obtain hok | ⟨f, rfl, -⟩ := exec_cases h
  · exact hok
  · exact absurd (raise_phase s f) ht

/-- Settles O39. The instruction completes, and `Completes.pc_of_advanced` and its companions say where PC then is. -/
theorem programCounterAdvance : Obligations.ProgramCounterAdvance := by
  intro i s t h ht
  have hok : Completes s t i := completes_of_exec h ht
  refine ⟨fun hi hpc => ?_, fun a ha => ⟨?_, ?_, ?_, ?_⟩, ?_⟩
  · rw [hok.pc_of_advanced hi, encode_length]
    exact advance_pc_toNat hpc
  · rintro rfl
    exact hok.pc_of_call ha
  · rintro rfl
    exact hok.pc_of_jmp ha
  · rintro rfl
    have hpc := hok.pc_of_jeq ha
    split at hpc
    · exact .inl hpc
    · exact .inr hpc
  · rintro rfl
    have hpc := hok.pc_of_jne ha
    split at hpc
    · exact .inr hpc
    · exact .inl hpc
  · rintro rfl
    exact hok.pc_of_ret

end Sys2Proof.Machine

/-! ### What a fetch answers, by format

How the fetch faults past the end of memory (R102), what it says of the opcode when it does not, and what it answers once
the opcode is looked up, whatever the row. -/

namespace Sys2Proof

/-- The number of operand bytes that a format takes (R51). -/
def Shape.arity : Shape → Nat
  | .f0 _ => 0
  | .f1 _ => 1
  | .f2 _ => 2

theorem Shape.arity_le (sh : Shape) : sh.arity ≤ 2 := by
  cases sh <;> simp [Shape.arity]

/-- With too few bytes left, the operand named is the first that is not there. -/
theorem takeOperands_missing {sh : Shape} {bs : List Byte} (h : bs.length < sh.arity) :
    takeOperands sh bs = .error (.missingByte (bs.length + 1)) := by
  match sh, bs, h with
  | .f1 _, [], _ => rfl
  | .f2 _, [], _ => rfl
  | .f2 _, [_], _ => rfl
  | .f1 _, _ :: _, h | .f2 _, _ :: _ :: _, h => simp [Shape.arity] at h

theorem checkOperands_of_wellFormed {i : Instr} (h : i.WellFormed = true) (rest : List Byte) :
    checkOperands i rest = .ok (i, rest) := by
  rw [checkOperands, (badRegister_eq_none i).2 h]

end Sys2Proof

namespace Sys2Proof.Machine

open Claims

/-- The operand bytes fetched are those up to the end of memory, two at most. -/
theorem fetchBytes_tail_length (s : State) : s.fetchBytes.tail.length = min 2 (255 - s.pc.toNat) := by
  rw [fetchBytes_eq]
  split_ifs <;> simp only [List.tail_cons, List.tail_nil, List.length_cons, List.length_nil] <;> omega

/-- From a PC that is no address the fetch faults before anything is read (R106). -/
theorem fetch_past_end {s : State} (h : 255 < s.pc.toNat) : s.fetch = .error (.addressRange s.pc.toNat) := by
  have hbytes : s.fetchBytes = [] := by
    rw [fetchBytes_eq, if_neg (by omega), if_neg (by omega), if_neg (by omega)]
  rw [State.fetch, hbytes]
  rfl

/-- A fetched instruction lies in memory, and its opcode is the byte at PC. -/
theorem fetch_ok {s : State} {i : Instr} (h : s.fetch = .ok i) : s.pc.toNat ≤ 255 ∧ opcodeAt s = i.opcode := by
  by_cases hpc : s.pc.toNat ≤ 255
  · obtain ⟨bs, hbytes⟩ := fetchBytes_head hpc
    refine ⟨hpc, ?_⟩
    rw [State.fetch] at h
    split at h
    · cases h
      obtain ⟨-, henc⟩ := decode_ok ‹_›
      exact (List.cons.inj (hbytes.symm.trans henc)).1
    · cases h
  · rw [fetch_past_end (by omega)] at h
    cases h

/-- An instruction without operands is fetched by its opcode alone, at every address of memory. -/
theorem fetch_of_lookup_f0 {s : State} (hpc : s.pc.toNat ≤ 255) {i : Instr} (hl : lookup (opcodeAt s) = some (.f0 i))
    (hi : i.WellFormed = true) : s.fetch = .ok i := by
  rw [fetch_of_lookup hpc hl, takeOperands, checkOperands_of_wellFormed hi]

/-- Of the operands of an instruction that memory no longer reaches, the first has address 256, whatever the format. -/
theorem operandFetchFaults_of_lookup {op : Byte} {sh : Shape} (hl : lookup op = some sh) :
    OperandFetchFaults op sh.arity := by
  rintro s he hpc rfl hend
  have hlen : s.fetchBytes.tail.length = 255 - s.pc.toNat := by
    have := sh.arity_le
    rw [fetchBytes_tail_length]
    omega
  refine step_of_fetch_error he ?_
  rw [fetch_of_lookup hpc hl, takeOperands_missing (by omega), hlen]
  exact congrArg (Except.error ∘ FaultRecord.addressRange) (by omega : s.pc.toNat + (255 - s.pc.toNat + 1) = 256)

/-- An instruction whose first check is that of a register operand refuses a byte above 7 (R103). -/
theorem refusesRegister_of_withReg {i : Instr} {a : Byte} {f : State → Reg → Except FaultRecord State}
    (hi : ∀ s, exec i s = s.withReg a (f s)) (ha : 7 < a.toNat) : RefusesRegister i a := fun s =>
  (hi s).trans (withReg_error (by omega) _)

/-! ### HLT, LDI and PRN (R80 to R82) -/

/-- The dispatcher's end of an instruction, in the fields that it sets (R71, R72). -/
theorem advance_loopTest_eq (s : State) (w : Nat) : (s.advance w).loopTest =
    { s with pc := s.pc + BitVec.ofNat 9 w, phase := if s.running then .running else .halted } := by
  rw [← advance_pc_eq_add]
  rfl

theorem exec_hlt (s : State) :
    exec .hlt s = .next { s with running := false, phase := .halted, pc := s.pc + 1#9 } := by
  rw [exec_of_completes (i := .hlt) rfl, advance_loopTest_eq]
  rfl

theorem exec_ldi {s : State} (hs : s.running = true) {a : Byte} (ha : a.toNat < 8) (imm : Byte) :
    exec (.ldi a imm) s =
      .next { s with regs := s.regs.set a.toNat imm, pc := s.pc + 3#9, phase := .running } := by
  rw [exec_of_completes (i := .ldi a imm) ⟨⟨a.toNat, ha⟩, rfl, rfl⟩, advance_loopTest_eq, writeReg_running, hs]
  rfl

theorem exec_prn {s : State} (hs : s.running = true) {a : Byte} (ha : a.toNat < 8) :
    exec (.prn a) s =
      .next { s with out := s.out ++ [s.regs[a.toNat]], pc := s.pc + 2#9, phase := .running } := by
  rw [exec_of_completes (i := .prn a) ⟨⟨a.toNat, ha⟩, rfl, rfl⟩, advance_loopTest_eq, output_running, hs]
  rfl

/-- A byte handed to the output is one more line of the rendering (D16). -/
theorem text_output (s : State) (v : Byte) :
    (s.output v).text = s.text ++ Nat.toDigits 10 v.toNat ++ ['\n'] := by
  simp [State.text]

/-- Only the loop test enters phase Halted, and only with the running flag clear (R116). -/
theorem step_running_of_halted {s t : State} (h : step s = .next t) (ht : t.phase = .halted) : t.running = false := by
  obtain ⟨u, rfl⟩ | ⟨f, rfl⟩ := step_ends h
  · simpa using ht
  · cases ht

/-- A step that clears the running flag has executed HLT (R17). -/
theorem opcodeAt_of_step_stops {s t : State} (hs : s.running = true) (h : step s = .next t) (ht : t.running = false) :
    opcodeAt s = Instr.hlt.opcode := by
  obtain ⟨-, ⟨f, -, rfl⟩ | ⟨i, hi, hexec⟩⟩ := step_cases h
  · simp [hs] at ht
  · obtain hsame | ⟨rfl, -⟩ := exec_running hexec
    · simp [hsame, hs] at ht
    · exact (fetch_ok hi).2

theorem step_ne_next_of_halted {t : State} (ht : t.phase = .halted) (u : State) : step t ≠ .next u := by
  intro h
  simpa [State.Enabled, ht] using (step_cases h).1

/-- Settles O17. The state HLT leaves is `exec_hlt`; that nothing else halts a running machine is
`opcodeAt_of_step_stops`. -/
theorem hltClearsRunning : Obligations.HltClearsRunning := by
  refine ⟨rfl, exec_hlt, fun s he hpc hop => ?_, fun s he hpc => ?_, fun s t hs h ht => ?_, fun s t h => ?_⟩
  · exact step_of_fetch_ok he (fetch_of_lookup_f0 hpc (by rw [hop]; rfl) rfl)
  · rw [← hpc]
    exact step_of_fetch_error he (fetch_past_end (by omega))
  · exact opcodeAt_of_step_stops hs h (step_running_of_halted h ht)
  · rw [exec_hlt] at h
    cases h
    exact ⟨rfl, step_ne_next_of_halted rfl⟩

/-- Settles O18. The state LDI leaves is `exec_ldi`; the fault past the end of memory is that of its format. -/
theorem ldiLoadsImmediate : Obligations.LdiLoadsImmediate :=
  ⟨fun _ _ => rfl, fun _ imm _ ha hs => exec_ldi hs ha imm, fun _ _ => refusesRegister_of_withReg fun _ => rfl,
    operandFetchFaults_of_lookup (sh := .f2 .ldi) rfl⟩

/-- Settles O19. The state PRN leaves is `exec_prn`, and its line of the rendering is `text_output`. -/
theorem prnOutputsRegister : Obligations.PrnOutputsRegister :=
  ⟨fun _ => rfl, fun _ _ ha hs => exec_prn hs ha, text_output, fun _ => refusesRegister_of_withReg fun _ => rfl,
    operandFetchFaults_of_lookup (sh := .f1 .prn) rfl⟩

end Sys2Proof.Machine

/-! ### ADD, MUL and CMP (R86 to R88) -/

namespace Sys2Proof.Machine

open Claims

/-- Of two register operands the first above 7 is refused, in this order (R103, R106). -/
theorem refusesRegister_of_withRegs {i : Instr} {a b : Byte} {f : State → Reg → Reg → Except FaultRecord State}
    (hi : ∀ s, exec i s = s.withRegs a b (f s)) :
    (7 < a.toNat → RefusesRegister i a) ∧ (a.toNat ≤ 7 → 7 < b.toNat → RefusesRegister i b) :=
  ⟨fun ha s => (hi s).trans (withRegs_error_first (by omega) _),
    fun ha hb s => (hi s).trans (withRegs_error_second (by omega) (by omega) _)⟩

/-- The low byte of a number is already that of its remainder (R85). -/
theorem byte_ofNat_mod (n : Nat) : BitVec.ofNat 8 (n % 256) = BitVec.ofNat 8 n := by
  apply BitVec.eq_of_toNat_eq
  rw [BitVec.toNat_ofNat, BitVec.toNat_ofNat, Nat.mod_mod]

/-- Where `bit` is the flag of the relation that holds, the comparison adds that flag alone: the relations exclude each
other (R88). -/
theorem compareFlags_eq_or {x y bit : Byte} (clears : Bool) (fl : Byte)
    (h : (x.toNat = y.toNat ∧ bit = 0x01#8) ∨ (x.toNat > y.toNat ∧ bit = 0x02#8) ∨
      (x.toNat < y.toNat ∧ bit = 0x04#8)) :
    compareFlags clears fl x y = (if clears then 0x00#8 else fl) ||| bit := by
  obtain ⟨hrel, hfl⟩ | ⟨hrel, hfl⟩ | ⟨hrel, hfl⟩ := compareFlags_cases clears fl x y
  · have hbit : bit = 0x01#8 := by bv_omega
    rw [hfl, hbit]
  · have hbit : bit = 0x02#8 := by bv_omega
    rw [hfl, hbit]
  · have hbit : bit = 0x04#8 := by bv_omega
    rw [hfl, hbit]

/-- An instruction on two legal register operands ends in the state the ALU made, advanced over its three bytes (R71,
R72). -/
theorem withRegs_alu {s t : State} {a b : Byte} (ha : a.toNat < 8) (hb : b.toNat < 8) {op : AluOp}
    (halu : s.alu op ⟨a.toNat, ha⟩ ⟨b.toNat, hb⟩ = .ok t) (ht : t.running = true) :
    s.withRegs a b (fun ra rb => (s.alu op ra rb).map (State.advance · 3)) =
      .next { t with pc := t.pc + 3#9, phase := .running } := by
  rw [withRegs_ok ha hb, halu, Except.map, settle_ok, advance_loopTest_eq, ht]
  rfl

section results
variable {s : State} (hs : s.running = true) {a b : Byte} (ha : a.toNat < 8) (hb : b.toNat < 8)
include hs

theorem exec_add : exec (.add a b) s = .next { s with
    regs := s.regs.set a.toNat (BitVec.ofNat 8 (s.regs[a.toNat].toNat + s.regs[b.toNat].toNat)),
    pc := s.pc + 3#9, phase := .running } := withRegs_alu ha hb (alu_add s _ _) hs

theorem exec_mul : exec (.mul a b) s = .next { s with
    regs := s.regs.set a.toNat (BitVec.ofNat 8 (s.regs[a.toNat].toNat * s.regs[b.toNat].toNat)),
    pc := s.pc + 3#9, phase := .running } := withRegs_alu ha hb (alu_mul s _ _) hs

theorem exec_cmp : exec (.cmp a b) s = .next { s with
    fl := compareFlags s.cfg.cmpClearsFl s.fl s.regs[a.toNat] s.regs[b.toNat],
    pc := s.pc + 3#9, phase := .running } := withRegs_alu ha hb (alu_cmp s _ _) hs

end results

/-- Settles O20. The state ADD leaves is `exec_add`; the operands' faults are those of the register check and of the
format. -/
theorem addSumsModulo256 : Obligations.AddSumsModulo256 := by
  refine ⟨fun _ _ => rfl, fun a b s ha hb hs => ?_, fun _ _ => refusesRegister_of_withRegs fun _ => rfl,
    operandFetchFaults_of_lookup (sh := .f2 .add) rfl⟩
  rw [byte_ofNat_mod]
  exact exec_add hs ha hb

/-- Settles O21. The state MUL leaves is `exec_mul`; the faults are those of ADD. -/
theorem mulMultipliesModulo256 : Obligations.MulMultipliesModulo256 := by
  refine ⟨fun _ _ => rfl, fun a b s ha hb hs => ?_, fun _ _ => refusesRegister_of_withRegs fun _ => rfl,
    operandFetchFaults_of_lookup (sh := .f2 .mul) rfl⟩
  rw [byte_ofNat_mod]
  exact exec_mul hs ha hb

/-- Settles O22. The state CMP leaves is `exec_cmp`, and the one flag it adds is named by `compareFlags_eq_or`. -/
theorem cmpSetsOneFlag : Obligations.CmpSetsOneFlag := by
  refine ⟨fun _ _ => rfl, fun a b s ha hb bit hs hbit => ?_, fun _ _ => refusesRegister_of_withRegs fun _ => rfl,
    operandFetchFaults_of_lookup (sh := .f2 .cmp) rfl⟩
  rw [exec_cmp hs ha hb, compareFlags_eq_or _ _ hbit]

end Sys2Proof.Machine

/-! ### PUSH and POP (R91, R92) -/

namespace Sys2Proof.Machine

open Claims

/-- After a write of SP, register 7 reads the byte written and every other register reads as before (R11). -/
theorem setSp_getElem (s : State) (v : Byte) {n : Nat} (hn : n < 8) :
    (s.setSp v).regs[n] = if n = 7 then v else s.regs[n] := by
  rw [setSp_regs, Vector.getElem_set]
  exact if_congr eq_comm rfl rfl

/-- The increment that follows a pop's load is of the loaded byte where the register loaded is SP itself, and of the SP
before the pop otherwise (R92, D10). -/
theorem writeReg_dropByte_regs (s : State) {n : Nat} (hn : n < 8) (v : Byte) :
    (s.writeReg ⟨n, hn⟩ v).dropByte.regs =
      if n = 7 then s.regs.set 7 (v + 1#8) else (s.regs.set n v).set 7 (s.regs[7] + 1#8) := by
  rw [dropByte_regs]
  split
  · have hr : (⟨n, hn⟩ : Reg) = spReg := Fin.ext ‹n = 7›
    rw [hr, State.sp, readReg_writeReg_same]
    exact Vector.set_set ..
  · have hr : (⟨n, hn⟩ : Reg) ≠ spReg := fun e => ‹n ≠ 7› (congrArg Fin.val e)
    rw [sp_writeReg s hr]
    rfl

section results
variable {s : State} (hs : s.running = true) {a : Byte} (ha : a.toNat < 8)
include hs

theorem exec_push : exec (.push a) s = .next { s with
    regs := s.regs.set 7 (s.regs[7] - 1#8),
    mem := Memory.set s.mem (s.regs[7] - 1#8).toNat (if a.toNat = 7 then s.regs[7] - 1#8 else s.regs[a.toNat]),
    pc := s.pc + 2#9, phase := .running } := by
  rw [exec_of_completes (i := .push a) ⟨⟨a.toNat, ha⟩, rfl, rfl⟩, advance_loopTest_eq, setCell_running, setSp_running, hs,
    ← setSp_getElem s _ ha]
  rfl

theorem exec_pop : exec (.pop a) s = .next { s with
    regs := if a.toNat = 7 then s.regs.set 7 (s.cell s.regs[7].toNat + 1#8)
      else (s.regs.set a.toNat (s.cell s.regs[7].toNat)).set 7 (s.regs[7] + 1#8),
    pc := s.pc + 2#9, phase := .running } := by
  rw [exec_of_completes (i := .pop a) ⟨⟨a.toNat, ha⟩, rfl, rfl⟩, advance_loopTest_eq, dropByte_running,
    writeReg_running, hs, ← writeReg_dropByte_regs s ha]
  rfl

end results

/-- Settles O23. The state PUSH leaves is `exec_push`, where the byte stored is read after the decrement (`setSp_getElem`);
the faults are those of the register check and of the format. -/
theorem pushDecrementsThenStores : Obligations.PushDecrementsThenStores :=
  ⟨fun _ => rfl, fun _ _ ha hs => exec_push hs ha, fun _ => refusesRegister_of_withReg fun _ => rfl,
    operandFetchFaults_of_lookup (sh := .f1 .push) rfl⟩

/-- Settles O24. The state POP leaves is `exec_pop`, where the order of the two writes is that of
`writeReg_dropByte_regs`; the faults are those of PUSH. -/
theorem popLoadsThenIncrements : Obligations.PopLoadsThenIncrements :=
  ⟨fun _ => rfl, fun _ _ ha hs => exec_pop hs ha, fun _ => refusesRegister_of_withReg fun _ => rfl,
    operandFetchFaults_of_lookup (sh := .f1 .pop) rfl⟩

end Sys2Proof.Machine

/-! ### CALL, RET, JMP, JEQ and JNE (R95 to R99) -/

namespace Sys2Proof.Machine

open Claims

/-- The end of a transfer of control, in the fields that it sets: the target is a byte, so PC is in range (R71, R94a). -/
theorem jump_loopTest_eq (s : State) (v : Byte) : (s.jump v).loopTest =
    { s with pc := v.setWidth 9, phase := if s.running then .running else .halted } := rfl

/-- An enabled step from a PC that is no address takes the fault of fetching the opcode (R102). -/
theorem step_past_end {s : State} (he : s.Enabled) (h : 255 < s.pc.toNat) :
    step s = .next (s.raise (.addressRange s.pc.toNat)) :=
  step_of_fetch_error he (fetch_past_end h)

/-- CALL checks its return address before it pushes, so that the fault leaves what was before the step (R95, D9). -/
theorem exec_call_past_end {s : State} {a : Byte} (ha : a.toNat < 8) (hpc : 255 < s.pc.toNat + 2) :
    exec (.call a) s = .next (s.raise (.addressRange (s.pc.toNat + 2))) := by
  rw [exec, execCall, withReg_ok ha, returnAddress_error hpc]
  rfl

section results
variable {s : State} (hs : s.running = true)
include hs

theorem exec_ret : exec .ret s = .next { s with
    regs := s.regs.set 7 (s.regs[7] + 1#8), pc := (s.cell s.regs[7].toNat).setWidth 9, phase := .running } := by
  rw [exec_of_completes (i := .ret) rfl, State.loopTest, dropByte_running, jump_running, hs]
  rfl

variable {a : Byte} (ha : a.toNat < 8)

theorem exec_call (hpc : s.pc.toNat + 2 ≤ 255) : exec (.call a) s = .next { s with
    regs := s.regs.set 7 (s.regs[7] - 1#8),
    mem := Memory.set s.mem (s.regs[7] - 1#8).toNat (BitVec.ofNat 8 (s.pc.toNat + 2)),
    pc := (if a.toNat = 7 then s.regs[7] - 1#8 else s.regs[a.toNat]).setWidth 9, phase := .running } := by
  rw [exec_of_completes (i := .call a) ⟨⟨a.toNat, ha⟩, rfl, hpc, rfl⟩, jump_loopTest_eq, setCell_running,
    setSp_running, hs, ← setSp_getElem s _ ha]
  rfl

theorem exec_jmp : exec (.jmp a) s = .next { s with pc := s.regs[a.toNat].setWidth 9, phase := .running } := by
  rw [exec_of_completes (i := .jmp a) ⟨⟨a.toNat, ha⟩, rfl, rfl⟩, jump_loopTest_eq, hs]
  rfl

/-- A branch on any condition ends in a transfer or in the advance over its own two bytes (R94g). -/
theorem branch_loopTest_eq (taken : Prop) [Decidable taken] (v : Byte) :
    (if taken then s.jump v else s.advance 2).loopTest =
      { s with pc := if taken then v.setWidth 9 else s.pc + 2#9, phase := .running } := by
  split
  · rw [jump_loopTest_eq, hs]
    rfl
  · rw [advance_loopTest_eq, hs]
    rfl

theorem exec_jeq : exec (.jeq a) s = .next { s with
    pc := if s.fl.getLsbD 0 = true then s.regs[a.toNat].setWidth 9 else s.pc + 2#9, phase := .running } := by
  rw [exec_of_completes (i := .jeq a) ⟨⟨a.toNat, ha⟩, rfl, rfl⟩, branch_loopTest_eq hs]
  rfl

theorem exec_jne : exec (.jne a) s = .next { s with
    pc := if s.fl.getLsbD 0 = false then s.regs[a.toNat].setWidth 9 else s.pc + 2#9, phase := .running } := by
  have not_equal : s.fl.getLsbD 0 = false ↔ ¬ flagE s.fl = true := by rw [flagE, Bool.not_eq_true]
  rw [exec_of_completes (i := .jne a) ⟨⟨a.toNat, ha⟩, rfl, rfl⟩, ← ite_not, branch_loopTest_eq hs]
  simp only [not_equal]
  rfl

end results

/-- Settles O25. The state CALL leaves is `exec_call`, where the target is read after the decrement (`setSp_getElem`); a
return address past the end of memory is `exec_call_past_end`. -/
theorem callPushesReturnAddress : Obligations.CallPushesReturnAddress :=
  ⟨fun _ => rfl, fun _ _ ha hs => exec_call hs ha, fun _ _ => exec_call_past_end,
    fun _ => refusesRegister_of_withReg fun _ => rfl, operandFetchFaults_of_lookup (sh := .f1 .call) rfl⟩

/-- Settles O26. The state RET leaves is `exec_ret`; having no operands, it is fetched at every address of memory. -/
theorem retPopsProgramCounter : Obligations.RetPopsProgramCounter := by
  refine ⟨rfl, fun _ => exec_ret, fun s he hpc hop => ?_, fun s he hpc => ?_⟩
  · exact step_of_fetch_ok he (fetch_of_lookup_f0 hpc (by rw [hop]; rfl) rfl)
  · rw [← hpc]
    exact step_past_end he (by omega)

/-- Settles O27. The state JMP leaves is `exec_jmp`; the faults are those of the register check and of the format. -/
theorem jmpSetsProgramCounter : Obligations.JmpSetsProgramCounter :=
  ⟨fun _ => rfl, fun _ _ ha hs => exec_jmp hs ha, fun _ => refusesRegister_of_withReg fun _ => rfl,
    operandFetchFaults_of_lookup (sh := .f1 .jmp) rfl⟩

/-- Settles O28. The state JEQ leaves, taken or not, is `exec_jeq`; neither fault reads FL, being those of JMP. -/
theorem jeqJumpsWhenEqual : Obligations.JeqJumpsWhenEqual :=
  ⟨fun _ => rfl, fun _ _ ha hs => exec_jeq hs ha, fun _ => refusesRegister_of_withReg fun _ => rfl,
    operandFetchFaults_of_lookup (sh := .f1 .jeq) rfl⟩

/-- Settles O29. The state JNE leaves, taken or not, is `exec_jne`; the faults are those of JEQ. -/
theorem jneJumpsWhenNotEqual : Obligations.JneJumpsWhenNotEqual :=
  ⟨fun _ => rfl, fun _ _ ha hs => exec_jne hs ha, fun _ => refusesRegister_of_withReg fun _ => rfl,
    operandFetchFaults_of_lookup (sh := .f1 .jne) rfl⟩

end Sys2Proof.Machine

/-! ### Faults: which can be raised, and what taking one leaves (R101, R104, R107) -/

namespace Sys2Proof

open Claims

/-- Operands are taken only once the opcode is known: they can be missing or name no register, and nothing else (R106). -/
theorem takeOperands_ne_unknownOpcode (sh : Shape) (bs : List Byte) (op : Byte) :
    takeOperands sh bs ≠ .error (.unknownOpcode op) := by
  have check (i : Instr) (rest : List Byte) : checkOperands i rest ≠ .error (.unknownOpcode op) := fun h => by
    obtain ⟨v, -, hv⟩ := checkOperands_error h
    cases hv
  match sh, bs with
  | .f0 i, bs => exact check i bs
  | .f1 mk, a :: rest => exact check (mk a) rest
  | .f2 mk, a :: b :: rest => exact check (mk a b) rest
  | .f1 _, [] | .f2 _, [] | .f2 _, [_] => exact nofun

/-- The converse of `decode_unknown`: bytes refused as an unknown opcode begin with it. -/
theorem decode_error_unknownOpcode {bs : List Byte} {op : Byte} (h : decode bs = .error (.unknownOpcode op)) :
    op ∉ thirteenOpcodes ∧ ∃ rest, bs = op :: rest := by
  cases bs with
  | nil => cases h
  | cons b bs =>
    rw [decode] at h
    split at h
    · cases h
      exact ⟨(lookup_eq_none op).1 ‹_›, bs, rfl⟩
    · exact absurd h (takeOperands_ne_unknownOpcode _ bs op)

end Sys2Proof

namespace Sys2Proof.Machine

open Claims

/-- A fault of the fetch is the hardware's name for what the decoder could not read. -/
theorem fetch_error {s : State} {f : FaultRecord} (h : s.fetch = .error f) :
    ∃ e, decode s.fetchBytes = .error e ∧ f = faultOf s.pc.toNat e := by
  rw [State.fetch] at h
  split at h
  · cases h
  · cases h
    exact ⟨_, ‹_›, rfl⟩

/-- The ALU's fault is no fault of the fetch (R104). -/
theorem faultOf_ne_unsupportedAluOp (pc : Nat) (e : DecodeError) : faultOf pc e ≠ .unsupportedAluOp := by
  cases e <;> exact nofun

/-- The fetch finds an unknown instruction exactly where a byte of memory that is no opcode stands at PC (R101). -/
theorem fetch_eq_unknown_iff (s : State) (op : Byte) :
    s.fetch = .error (.unknownInstruction op) ↔
      s.pc.toNat ≤ 255 ∧ opcodeAt s = op ∧ op ∉ thirteenOpcodes := by
  constructor
  · intro h
    obtain ⟨e, hdec, hf⟩ := fetch_error h
    cases e with
    | missingByte k => cases hf
    | badRegister v => cases hf
    | unknownOpcode op' =>
      cases hf
      obtain ⟨hop, rest, hbytes⟩ := decode_error_unknownOpcode hdec
      have hpc : s.pc.toNat ≤ 255 := by
        by_contra hend
        rw [fetch_past_end (by omega)] at h
        cases h
      obtain ⟨bs, hhead⟩ := fetchBytes_head hpc
      exact ⟨hpc, (List.cons.inj (hhead.symm.trans hbytes)).1, hop⟩
  · rintro ⟨hpc, rfl, hop⟩
    exact fetch_unknown hpc hop

/-- An instruction that completes ends in the loop test of R71, on a state whose fault record is that of before. -/
theorem Completes.ends {i : Instr} {s t : State} (h : Completes s t i) :
    ∃ u : State, t = u.loopTest ∧ u.fault = s.fault := by
  cases i with
  | hlt | ret => exact ⟨_, h, rfl⟩
  | ldi a _ | prn a | push a | pop a | jmp a => obtain ⟨ra, -, rfl⟩ := h; exact ⟨_, rfl, rfl⟩
  | add a b | mul a b | cmp a b => obtain ⟨ra, rb, -, -, rfl⟩ := h; exact ⟨_, rfl, rfl⟩
  | call a => obtain ⟨ra, -, -, rfl⟩ := h; exact ⟨_, rfl, rfl⟩
  | jeq a | jne a => obtain ⟨ra, -, rfl⟩ := h; exact ⟨_, rfl, by split <;> rfl⟩

/-- The two faults that executing an instruction can take, and no third: an illegal register operand, and CALL's return
address past the end of memory (R102, R103). -/
theorem exec_completes_or_raises {i : Instr} {s t : State} (h : exec i s = .next t) :
    Completes s t i ∨ (∃ v, t = s.raise (.registerIndex v)) ∨
      ∃ a, i = .call a ∧ 255 < s.pc.toNat + 2 ∧ t = s.raise (.addressRange (s.pc.toNat + 2)) := by
  cases i with
  | hlt => exact .inl (execHlt_cases h)
  | ret => exact .inl (execRet_cases h)
  | ldi a imm => exact (execLdi_cases h).imp_right fun e => .inl ⟨a, e⟩
  | prn a => exact (execPrn_cases h).imp_right fun e => .inl ⟨a, e⟩
  | add a b => exact (execAdd_cases h).imp_right fun e => .inl (e.elim (⟨a, ·⟩) (⟨b, ·⟩))
  | mul a b => exact (execMul_cases h).imp_right fun e => .inl (e.elim (⟨a, ·⟩) (⟨b, ·⟩))
  | cmp a b => exact (execCmp_cases h).imp_right fun e => .inl (e.elim (⟨a, ·⟩) (⟨b, ·⟩))
  | push a => exact (execPush_cases h).imp_right fun e => .inl ⟨a, e⟩
  | pop a => exact (execPop_cases h).imp_right fun e => .inl ⟨a, e⟩
  | jmp a => exact (execJmp_cases h).imp_right fun e => .inl ⟨a, e⟩
  | jeq a => exact (execJeq_cases h).imp_right fun e => .inl ⟨a, e⟩
  | jne a => exact (execJne_cases h).imp_right fun e => .inl ⟨a, e⟩
  | call a => exact (execCall_cases h).imp_right (Or.imp (⟨a, ·⟩) (⟨a, rfl, ·⟩))

theorem raise_injective {s : State} {f g : FaultRecord} (h : s.raise f = s.raise g) : f = g :=
  Option.some.inj (congrArg State.fault h)

/-- Executing an instruction never takes the fault of an unknown one: the lookup is before it (R71, R106). -/
theorem exec_ne_raise_unknown (i : Instr) (s : State) (op : Byte) :
    exec i s ≠ .next (s.raise (.unknownInstruction op)) := by
  intro h
  obtain hok | ⟨v, hv⟩ | ⟨a, -, -, ha⟩ := exec_completes_or_raises h
  · obtain ⟨u, hu, -⟩ := hok.ends
    exact (loopTest_phase_ne u).1 (congrArg State.phase hu).symm
  · cases raise_injective hv
  · cases raise_injective ha

/-- Settles O12. Executing an instruction never takes this fault (`exec_ne_raise_unknown`), so the step raises it exactly
when the fetch does (`fetch_eq_unknown_iff`). -/
theorem unknownInstructionFault : Obligations.UnknownInstructionFault := by
  refine fun s op he => ⟨?_, raise_diagnostic s _, step_raise_ne_next s _⟩
  rw [← fetch_eq_unknown_iff]
  refine ⟨fun h => ?_, step_of_fetch_error he⟩
  obtain ⟨-, ⟨f, hf, hraise⟩ | ⟨i, -, hexec⟩⟩ := step_cases h
  · rw [hf, raise_injective hraise]
  · exact absurd hexec (exec_ne_raise_unknown i s op)

/-- A step that records the ALU's fault began with it recorded: no fetch and no instruction takes it (R104). -/
theorem step_fault_unsupportedAluOp {s t : State} (h : step s = .next t) (ht : t.fault = some .unsupportedAluOp) :
    s.fault = some .unsupportedAluOp := by
  obtain ⟨-, ⟨f, hf, rfl⟩ | ⟨i, -, hexec⟩⟩ := step_cases h
  · obtain ⟨e, -, rfl⟩ := fetch_error hf
    exact absurd (Option.some.inj ht) (faultOf_ne_unsupportedAluOp _ e)
  · obtain hok | ⟨f, rfl, hne⟩ := exec_cases hexec
    · obtain ⟨u, rfl, hu⟩ := hok.ends
      exact hu.symm.trans ht
    · exact absurd (Option.some.inj ht) hne

/-- Settles O15. That no step introduces the fault is `step_fault_unsupportedAluOp`; it would be terminal as every fault
is. -/
theorem unsupportedAluOpNeverRaised : Obligations.UnsupportedAluOpNeverRaised :=
  ⟨fun _ _ _ => rfl, fun _ _ => step_fault_unsupportedAluOp, fun s => step_raise_ne_next s _⟩

/-- A step ends in phase Faulted only by a fault taken in the state it began in (R107). -/
theorem step_raises_of_faulted {s t : State} (h : step s = .next t) (ht : t.phase = .faulted) : ∃ f, t = s.raise f := by
  obtain ⟨u, rfl⟩ | hf := step_ends h
  · exact absurd ht (loopTest_phase_ne u).1
  · exact hf

/-- Settles O16. The step ends in `State.raise` of the state it began in (`step_raises_of_faulted`), which changes the fault
record and the phase only. -/
theorem faultEntryIsPrecise : Obligations.FaultEntryIsPrecise := by
  intro s t h ht
  obtain ⟨f, rfl⟩ := step_raises_of_faulted h ht
  exact ⟨raise_regs s f, raise_mem s f, raise_pc s f, raise_fl s f, raise_running s f, raise_out s f, raise_cfg s f,
    ⟨f, raise_fault s f, raise_diagnostic s f⟩, ⟨_, raise_exitStatus s f, exitFault_ne_zero⟩, step_raise_ne_next s f⟩

end Sys2Proof.Machine

/-! ### Encoding and decoding, both ways (R50 to R56) -/

namespace Sys2Proof

/-- The operands that are used as register indices, in operand order (R53): all but LDI's immediate (R54). -/
def Instr.registerOperands : Instr → List Byte
  | .ldi a _ => [a]
  | i => i.operands

/-- The decoder's check names the first register operand that is above 7 (R103, R106). -/
theorem badRegister_eq_find (i : Instr) : i.badRegister = i.registerOperands.find? (7 < ·.toNat) := by
  have one (a : Byte) : [a].find? (7 < ·.toNat) = if 7 < a.toNat then some a else none := by
    simp [List.find?_singleton]
  have two (a b : Byte) : [a, b].find? (7 < ·.toNat) =
      if 7 < a.toNat then some a else if 7 < b.toNat then some b else none := by
    by_cases ha : 7 < a.toNat
    · simp [ha]
    · simp [ha, one]
  cases i with
  | hlt | ret => rfl
  | ldi a _ | prn a | push a | pop a | call a | jmp a | jeq a | jne a => exact (one a).symm
  | add a b | mul a b | cmp a b => exact (two a b).symm

theorem registerOperands_subset (i : Instr) : i.registerOperands ⊆ i.operands := by
  cases i with
  | ldi a imm => exact List.cons_subset_cons a (List.nil_subset [imm])
  | _ => exact List.Subset.refl _

/-- What the check names is an operand of the instruction, and above 7. -/
theorem badRegister_some {i : Instr} {v : Byte} (h : i.badRegister = some v) : 7 < v.toNat ∧ v ∈ i.operands := by
  rw [badRegister_eq_find] at h
  exact ⟨by simpa using List.find?_some h, registerOperands_subset i (List.mem_of_find?_eq_some h)⟩

/-- An ill-formed instruction has an operand that the check names. -/
theorem exists_badRegister {i : Instr} (h : i.WellFormed = false) : ∃ v, i.badRegister = some v := by
  rw [← Option.ne_none_iff_exists', ne_eq, badRegister_eq_none, h]
  exact Bool.false_ne_true

theorem decode_encode_of_badRegister {i : Instr} {v : Byte} (h : i.badRegister = some v) (rest : List Byte) :
    decode (encode i ++ rest) = .error (.badRegister v) := by
  rw [decode_encode_append, checkOperands, h]

theorem decode_encode_of_wellFormed {i : Instr} (h : i.WellFormed = true) (rest : List Byte) :
    decode (encode i ++ rest) = .ok (i, rest) := by
  rw [decode_encode_append, checkOperands_of_wellFormed h]

/-- Settles O1. Decoding an encoding is the check of its register operands, which passes the well-formed instructions and
names an operand of every other (`badRegister_some`). -/
theorem decodeOfEncodeIsInstruction : Obligations.DecodeOfEncodeIsInstruction := by
  refine fun i rest => ⟨fun hw => decode_encode_of_wellFormed hw rest, fun hw => ?_⟩
  obtain ⟨v, hv⟩ := exists_badRegister hw
  obtain ⟨hgt, hmem⟩ := badRegister_some hv
  exact ⟨v, hv, hgt, hmem, decode_encode_of_badRegister hv rest⟩

/-- Settles O2, by the inversion of the decoder, `decode_ok`. -/
theorem decodedBytesAreTheEncoding : Obligations.DecodedBytesAreTheEncoding := fun _ _ _ h => decode_ok h

/-- Settles O5: each word is looked up in the table and its operands checked, by computation. -/
theorem writtenOutWordsDecode : Obligations.WrittenOutWordsDecode :=
  ⟨rfl, rfl, rfl, rfl, rfl, rfl, rfl, rfl, rfl, rfl, rfl⟩

end Sys2Proof

/-! ### The bytes a fetch reads, and what a fetched instruction tells (R71) -/

namespace Sys2Proof.Machine

open Claims

/-- The bytes from an address up are those of the cells, at ascending addresses, as far as memory reaches (R32). -/
theorem bytesFrom_getElem? (s : State) (a n k : Nat) :
    (s.bytesFrom a n)[k]? = if k < n ∧ a + k ≤ 255 then some (s.cell (a + k)) else none := by
  induction n generalizing a k with
  | zero => rfl
  | succ n ih =>
    rw [State.bytesFrom]
    by_cases ha : a ≤ 255
    · rw [memRead_ok ha]
      cases k with
      | zero => simp [ha]
      | succ k => simp [ih, Nat.add_right_comm, ← Nat.add_assoc]
    · rw [memRead_error (by omega), if_neg (by omega)]
      rfl

theorem fetchBytes_getElem? (s : State) (k : Nat) :
    s.fetchBytes[k]? = if k < 3 ∧ s.pc.toNat + k ≤ 255 then some (s.cell (s.pc.toNat + k)) else none :=
  bytesFrom_getElem? s s.pc.toNat 3 k

/-- Settles O7, the case of three bytes of `bytesFrom_getElem?`. -/
theorem fetchReadsCellsAtPc : Obligations.FetchReadsCellsAtPc := fetchBytes_getElem?

/-- Settles O6: what the bytes decode to is what is fetched, or the fault of the fetch. -/
theorem stepRunsDecodedInstruction : Obligations.StepRunsDecodedInstruction := by
  refine fun s he => ⟨fun i rest h => step_of_fetch_ok he ?_, fun e h => step_of_fetch_error he ?_⟩
  · rw [State.fetch, h]
  · rw [State.fetch, h]

/-- The bytes fetched at PC begin with the encoding of `i`. -/
def State.Holds (s : State) (i : Instr) : Prop := encode i <+: s.fetchBytes

/-- An encoding stored in the cells from PC up, wholly in memory, is what the fetched bytes begin with. -/
theorem holds_of_cells {s : State} {i : Instr}
    (h : ∀ (k : Nat) (hk : k < (encode i).length),
      s.pc.toNat + k ≤ 255 ∧ s.cell (s.pc.toNat + k) = (encode i)[k]) : s.Holds i := by
  refine List.prefix_iff_getElem?.2 fun k hk => ?_
  obtain ⟨hin, hcell⟩ := h k hk
  have hlen : (encode i).length ≤ 3 := Nat.succ_le_succ (operands_length_le i)
  rw [fetchBytes_getElem?, if_pos ⟨by omega, hin⟩, hcell]

namespace State.Holds

variable {s : State} {i : Instr}

/-- The bytes of an instruction held at PC are those of the cells from PC up. -/
theorem cell_eq (h : s.Holds i) {k : Nat} (hk : k < (encode i).length) :
    s.pc.toNat + k ≤ 255 ∧ s.cell (s.pc.toNat + k) = (encode i)[k] := by
  have hbyte := List.prefix_iff_getElem?.1 h k hk
  rw [fetchBytes_getElem?] at hbyte
  split at hbyte
  · exact ⟨‹_ ∧ _›.2, Option.some.inj hbyte⟩
  · cases hbyte

/-- An instruction held at PC ends at address 255 at the latest. -/
theorem length_le (h : s.Holds i) : s.pc.toNat + (encode i).length ≤ 256 := by
  have := (h.cell_eq (k := i.operands.length) (Nat.lt_succ_self _)).1
  rw [encode, List.length_cons]
  omega

theorem opcode_eq (h : s.Holds i) : opcodeAt s = i.opcode := (h.cell_eq (k := 0) (Nat.succ_pos _)).2

/-- A well-formed instruction held at PC is what is fetched. -/
theorem fetch_ok (h : s.Holds i) (hw : i.WellFormed = true) : s.fetch = .ok i := by
  obtain ⟨rest, hbytes⟩ := h
  rw [State.fetch, ← hbytes, decode_encode_of_wellFormed hw]

/-- An instruction held at PC whose register operands are not all legal is refused, by the first that is not (R106). -/
theorem fetch_error (h : s.Holds i) {v : Byte} (hv : i.badRegister = some v) :
    s.fetch = .error (.registerIndex v) := by
  obtain ⟨rest, hbytes⟩ := h
  rw [State.fetch, ← hbytes, decode_encode_of_badRegister hv]
  rfl

end State.Holds

/-- What is fetched is held at PC, and well formed. -/
theorem holds_of_fetch {s : State} {i : Instr} (h : s.fetch = .ok i) : s.Holds i ∧ i.WellFormed = true := by
  rw [State.fetch] at h
  split at h
  · cases h
    obtain ⟨hw, hbytes⟩ := decode_ok ‹_›
    exact ⟨⟨_, hbytes.symm⟩, hw⟩
  · cases h

/-- Settles O8. The cells hold the encoding, so it is fetched (`State.Holds.fetch_ok`), and the step runs what is
fetched. -/
theorem stepRunsStoredEncoding : Obligations.StepRunsStoredEncoding := fun _ _ he hw hcells =>
  step_of_fetch_ok he ((holds_of_cells hcells).fetch_ok hw)

end Sys2Proof.Machine

/-! ### What an instruction that completes leaves of each piece of state

`Completes.regs_of_not_written` and `Completes.running` say it of the registers and of the running flag; here is the rest. -/

namespace Sys2Proof.Machine

open Claims

namespace Completes

variable {i : Instr} {s t : State}

theorem cfg (h : Completes s t i) : t.cfg = s.cfg := by
  cases i with
  | hlt | ret => cases h; rfl
  | ldi a _ | prn a | push a | pop a | jmp a => obtain ⟨ra, -, rfl⟩ := h; rfl
  | add a b | mul a b | cmp a b => obtain ⟨ra, rb, -, -, rfl⟩ := h; rfl
  | call a => obtain ⟨ra, -, -, rfl⟩ := h; rfl
  | jeq a | jne a => obtain ⟨ra, -, rfl⟩ := h; split <;> rfl

theorem fault (h : Completes s t i) : t.fault = s.fault := by
  obtain ⟨u, rfl, hu⟩ := h.ends
  exact hu

theorem running_of_ne_hlt (h : Completes s t i) (hi : i ≠ .hlt) : t.running = s.running :=
  h.running.resolve_right fun hhlt => hi hhlt.1

/-- PRN appends the byte of its register to the output (R82). -/
theorem out_of_prn {a : Byte} (h : Completes s t (.prn a)) :
    ∃ _ : a.toNat < 8, t.out = s.out ++ [s.regs[a.toNat]] := by
  obtain ⟨ra, ha, rfl⟩ := h
  have hlt : a.toNat < 8 := ha ▸ ra.isLt
  refine ⟨hlt, ?_⟩
  rw [regs_toNat_eq ha]
  rfl

/-- Every instruction but PRN leaves the output (R20). -/
theorem out_of_ne_prn (h : Completes s t i) (hi : ∀ a, i ≠ .prn a) : t.out = s.out := by
  cases i with
  | hlt | ret => cases h; rfl
  | ldi a _ | push a | pop a | jmp a => obtain ⟨ra, -, rfl⟩ := h; rfl
  | add a b | mul a b | cmp a b => obtain ⟨ra, rb, -, -, rfl⟩ := h; rfl
  | call a => obtain ⟨ra, -, -, rfl⟩ := h; rfl
  | jeq a | jne a => obtain ⟨ra, -, rfl⟩ := h; split <;> rfl
  | prn a => exact absurd rfl (hi a)

/-- CMP leaves in FL the result of comparing its registers (R88). -/
theorem fl_of_cmp {a b : Byte} (h : Completes s t (.cmp a b)) : ∃ ra rb : Reg, a.toNat = ra ∧ b.toNat = rb ∧
    t.fl = compareFlags s.cfg.cmpClearsFl s.fl s.regs[ra] s.regs[rb] := by
  obtain ⟨ra, rb, ha, hb, rfl⟩ := h
  exact ⟨ra, rb, ha, hb, rfl⟩

/-- Every instruction but CMP leaves FL (R16). -/
theorem fl_of_ne_cmp (h : Completes s t i) (hi : ∀ a b, i ≠ .cmp a b) : t.fl = s.fl := by
  cases i with
  | hlt | ret => cases h; rfl
  | ldi a _ | prn a | push a | pop a | jmp a => obtain ⟨ra, -, rfl⟩ := h; rfl
  | add a b | mul a b => obtain ⟨ra, rb, -, -, rfl⟩ := h; rfl
  | call a => obtain ⟨ra, -, -, rfl⟩ := h; rfl
  | jeq a | jne a => obtain ⟨ra, -, rfl⟩ := h; split <;> rfl
  | cmp a b => exact absurd rfl (hi a b)

theorem fl_cases (h : Completes s t i) :
    t.fl = s.fl ∨ (∃ a b, i = .cmp a b) ∧ ∃ x y, t.fl = compareFlags s.cfg.cmpClearsFl s.fl x y := by
  by_cases hi : ∃ a b, i = .cmp a b
  · obtain ⟨a, b, rfl⟩ := hi
    obtain ⟨ra, rb, -, -, hfl⟩ := h.fl_of_cmp
    exact .inr ⟨⟨a, b, rfl⟩, _, _, hfl⟩
  · exact .inl (h.fl_of_ne_cmp fun a b e => hi ⟨a, b, e⟩)

/-- PUSH and CALL write the cell at the decremented SP; every other instruction leaves memory (R31, R90). -/
theorem mem_cases (h : Completes s t i) :
    t.mem = s.mem ∨ (∃ a, i = .push a ∨ i = .call a) ∧ ∃ v, t.mem = Memory.set s.mem (s.sp - 1).toNat v := by
  cases i with
  | hlt | ret => cases h; exact .inl rfl
  | ldi a _ | prn a | pop a | jmp a => obtain ⟨ra, -, rfl⟩ := h; exact .inl rfl
  | add a b | mul a b | cmp a b => obtain ⟨ra, rb, -, -, rfl⟩ := h; exact .inl rfl
  | jeq a | jne a => obtain ⟨ra, -, rfl⟩ := h; exact .inl (by split <;> rfl)
  | push a => obtain ⟨ra, -, rfl⟩ := h; exact .inr ⟨⟨a, .inl rfl⟩, _, rfl⟩
  | call a => obtain ⟨ra, -, -, rfl⟩ := h; exact .inr ⟨⟨a, .inr rfl⟩, _, rfl⟩

/-- Every cell but the one at the decremented SP is left as it was, whatever the instruction. -/
theorem cell_of_ne (h : Completes s t i) {ad : Nat} (had : ad ≠ (s.sp - 1).toNat) : t.cell ad = s.cell ad := by
  rw [State.cell, State.cell]
  obtain hmem | ⟨-, v, hmem⟩ := h.mem_cases
  · rw [hmem]
  · rw [hmem, get_set_ne had]

/-- Every instruction but PUSH and CALL leaves memory. -/
theorem mem_of_not_push_call (h : Completes s t i) (hi : ∀ a, i ≠ .push a ∧ i ≠ .call a) : t.mem = s.mem := by
  obtain hmem | ⟨⟨a, hpush | hcall⟩, -⟩ := h.mem_cases
  · exact hmem
  · exact absurd hpush (hi a).1
  · exact absurd hcall (hi a).2

theorem cell_of_not_push_call (h : Completes s t i) (hi : ∀ a, i ≠ .push a ∧ i ≠ .call a) (ad : Nat) :
    t.cell ad = s.cell ad := by
  rw [State.cell, State.cell, h.mem_of_not_push_call hi]

/-- An instruction that writes no register leaves them all. -/
theorem regs_eq (h : Completes s t i) (hi : registersWritten i = []) : t.regs = s.regs :=
  Vector.ext fun r hr => h.regs_of_not_written (r := ⟨r, hr⟩) (by simp [hi])

/-- PC ends over the bytes of the instruction, or at a byte (R72, R94a). -/
theorem pc_cases (h : Completes s t i) :
    t.pc = (s.advance (encode i).length).pc ∨ ∃ v : Byte, t.pc = v.setWidth 9 := by
  cases i with
  | hlt | ldi _ _ | prn _ | add _ _ | mul _ _ | cmp _ _ | push _ | pop _ => exact .inl (h.pc_of_advanced rfl)
  | ret => cases h; exact .inr ⟨_, rfl⟩
  | jmp a => obtain ⟨ra, -, rfl⟩ := h; exact .inr ⟨_, rfl⟩
  | call a => obtain ⟨ra, -, -, rfl⟩ := h; exact .inr ⟨_, rfl⟩
  | jeq a => obtain ⟨ra, -, rfl⟩ := h; split; exacts [.inr ⟨_, rfl⟩, .inl rfl]
  | jne a => obtain ⟨ra, -, rfl⟩ := h; split; exacts [.inl rfl, .inr ⟨_, rfl⟩]

/-- The rest of the state is left by every instruction but HLT and PRN. -/
theorem rest_unchanged (h : Completes s t i) (hhlt : i ≠ .hlt) (hprn : ∀ a, i ≠ .prn a) :
    t.out = s.out ∧ t.running = s.running ∧ t.fault = s.fault ∧ t.cfg = s.cfg :=
  ⟨h.out_of_ne_prn hprn, h.running_of_ne_hlt hhlt, h.fault, h.cfg⟩

end Completes

/-! ### Frames of the instructions -/

/-- CMP leaves bits 7:3 of FL as they were, or clears them with the rest (R88). -/
theorem compareFlags_upper_bits (clears : Bool) (fl x y : Byte) :
    compareFlags clears fl x y >>> 3 = if clears then 0#8 else fl >>> 3 := by
  have base : (if clears then 0x00#8 else fl) >>> 3 = if clears then 0#8 else fl >>> 3 := by
    cases clears
    · rfl
    · exact BitVec.zero_ushiftRight
  obtain ⟨-, hfl⟩ | ⟨-, hfl⟩ | ⟨-, hfl⟩ := compareFlags_cases clears fl x y
  all_goals
    rw [hfl, BitVec.ushiftRight_or_distrib, base]
    exact BitVec.or_zero

/-- Settles O30, by the lemmas on what an instruction that completes leaves of each piece of state. -/
theorem frameOfLdiAddMul : Obligations.FrameOfLdiAddMul := by
  intro a b i s t hi h ht
  have hok : Completes s t i := completes_of_exec h ht
  have hwritten : registersWritten i = [a.toNat] := by obtain rfl | rfl | rfl := hi <;> rfl
  refine ⟨fun r hlt hr => hok.regs_of_not_written (r := ⟨r, hlt⟩) (by simpa [hwritten] using hr),
    hok.fl_of_ne_cmp ?_, hok.cell_of_not_push_call ?_, hok.rest_unchanged ?_ ?_⟩
  all_goals obtain rfl | rfl | rfl := hi <;> simp

/-- Settles O31. The one clause that is not an instruction's leaving a piece of state is CMP's on FL, which is
`compareFlags_upper_bits`. -/
theorem frameOfHltPrnCmpAndJumps : Obligations.FrameOfHltPrnCmpAndJumps := by
  intro a b i s t hi h ht
  have hok : Completes s t i := completes_of_exec h ht
  refine ⟨hok.regs_eq ?_, hok.cell_of_not_push_call ?_, fun hne => hok.fl_of_ne_cmp ?_, ?_,
    fun hne => hok.out_of_ne_prn ?_, hok.running_of_ne_hlt, hok.fault, hok.cfg⟩
  · obtain rfl | rfl | rfl | rfl | rfl | rfl := hi <;> rfl
  · obtain rfl | rfl | rfl | rfl | rfl | rfl := hi <;> simp
  · obtain rfl | rfl | rfl | rfl | rfl | rfl := hi <;> simp at hne ⊢
  · rintro rfl
    obtain ⟨ra, rb, -, -, hfl⟩ := hok.fl_of_cmp
    rw [hfl, compareFlags_upper_bits]
  · obtain rfl | rfl | rfl | rfl | rfl | rfl := hi <;> simp at hne ⊢

/-- Settles O32, as O30. -/
theorem frameOfPopAndRet : Obligations.FrameOfPopAndRet := by
  intro a i s t hi h ht
  have hok : Completes s t i := completes_of_exec h ht
  refine ⟨fun r hlt h7 ha => hok.regs_of_not_written (r := ⟨r, hlt⟩) ?_,
    hok.fl_of_ne_cmp ?_, hok.cell_of_not_push_call ?_, hok.rest_unchanged ?_ ?_⟩
  · obtain rfl | rfl := hi
    · simp [registersWritten, h7, ha rfl]
    · simp [registersWritten, h7]
  all_goals obtain rfl | rfl := hi <;> simp

/-- Settles O33, as O30. -/
theorem frameOfPushAndCall : Obligations.FrameOfPushAndCall := by
  intro a i s t hi h ht
  have hok : Completes s t i := completes_of_exec h ht
  have hwritten : registersWritten i = [7] := by obtain rfl | rfl := hi <;> rfl
  refine ⟨fun r hlt hr => hok.regs_of_not_written (r := ⟨r, hlt⟩) (by simpa [hwritten] using hr),
    hok.fl_of_ne_cmp ?_, fun ad => hok.cell_of_ne, hok.rest_unchanged ?_ ?_⟩
  all_goals obtain rfl | rfl := hi <;> simp

/-! ### What no instruction depends on: FL, the past output, the cells that are not popped -/

/-- To an instruction other than CMP that completes, FL is frame, but for bit E to a branch (R16). -/
theorem Completes.setFl {i : Instr} {s t : State} (h : Completes s t i) {f : Byte} (hcmp : ∀ a b, i ≠ .cmp a b)
    (hE : (∃ a, i = .jeq a ∨ i = .jne a) → flagE f = flagE s.fl) : Completes (s.setFl f) (t.setFl f) i := by
  cases i with
  | hlt | ret => cases h; exact rfl
  | ldi a _ | prn a | push a | pop a | jmp a => obtain ⟨ra, ha, rfl⟩ := h; exact ⟨ra, ha, rfl⟩
  | add a b | mul a b => obtain ⟨ra, rb, ha, hb, rfl⟩ := h; exact ⟨ra, rb, ha, hb, rfl⟩
  | call a => obtain ⟨ra, ha, hpc, rfl⟩ := h; exact ⟨ra, ha, hpc, rfl⟩
  | jeq a =>
    obtain ⟨ra, ha, rfl⟩ := h
    refine ⟨ra, ha, ?_⟩
    rw [setFl_fl, hE ⟨a, .inl rfl⟩]
    split <;> rfl
  | jne a =>
    obtain ⟨ra, ha, rfl⟩ := h
    refine ⟨ra, ha, ?_⟩
    rw [setFl_fl, hE ⟨a, .inr rfl⟩]
    split <;> rfl
  | cmp a b => exact absurd rfl (hcmp a b)

/-- Settles O35. A fault leaves FL, and is taken or not whatever FL is; where the instruction completes, the first half is
`Completes.fl_cases` and the second `Completes.setFl`. -/
theorem onlyCmpWritesFlags : Obligations.OnlyCmpWritesFlags := by
  refine ⟨fun i s t h hne => ?_, fun i s f hcmp hE => ?_⟩
  · obtain hok | ⟨f, rfl, -⟩ := exec_cases h
    · exact (hok.fl_cases.resolve_left hne).1
    · exact absurd rfl hne
  · exact exec_eq_onNext (g := fun t => t.setFl f) rfl (fun _ => rfl) fun t ht => ht.setFl hcmp hE

/-- The state with its first `n` bytes of output replaced by `o`. -/
def State.replaceOut (o : List Byte) (n : Nat) (t : State) : State := { t with out := o ++ t.out.drop n }

/-- Where `t` has appended `l` to the output of `s`, replacing what was before appends `l` to the replacement. -/
theorem replaceOut_of_append {s t : State} {l : List Byte} (h : t.out = s.out ++ l) (o : List Byte) :
    t.replaceOut o s.out.length = { t with out := o ++ l } := by
  rw [State.replaceOut, h, List.drop_left]

theorem replaceOut_of_unchanged {s t : State} (h : t.out = s.out) (o : List Byte) :
    t.replaceOut o s.out.length = { t with out := o } := by
  rw [replaceOut_of_append (l := []) (by rw [h, List.append_nil]), List.append_nil]

/-- To an instruction other than PRN that completes, the output is frame. -/
theorem Completes.setOut {i : Instr} {s t : State} (h : Completes s t i) (hprn : ∀ a, i ≠ .prn a) (o : List Byte) :
    Completes { s with out := o } { t with out := o } i := by
  cases i with
  | hlt | ret => cases h; exact rfl
  | ldi a _ | push a | pop a | jmp a => obtain ⟨ra, ha, rfl⟩ := h; exact ⟨ra, ha, rfl⟩
  | add a b | mul a b | cmp a b => obtain ⟨ra, rb, ha, hb, rfl⟩ := h; exact ⟨ra, rb, ha, hb, rfl⟩
  | call a => obtain ⟨ra, ha, hpc, rfl⟩ := h; exact ⟨ra, ha, hpc, rfl⟩
  | jeq a | jne a => obtain ⟨ra, ha, rfl⟩ := h; exact ⟨ra, ha, by dsimp only; split <;> rfl⟩
  | prn a => exact absurd rfl (hprn a)

/-- An instruction that completes appends the same bytes to another past output, and all else is the same (R20). -/
theorem Completes.replaceOut {i : Instr} {s t : State} (h : Completes s t i) (o : List Byte) :
    Completes { s with out := o } (t.replaceOut o s.out.length) i := by
  by_cases hprn : ∃ a, i = .prn a
  · obtain ⟨a, rfl⟩ := hprn
    obtain ⟨ra, ha, rfl⟩ := h
    exact ⟨ra, ha, replaceOut_of_append rfl o⟩
  · have hne : ∀ a, i ≠ .prn a := fun a e => hprn ⟨a, e⟩
    rw [replaceOut_of_unchanged (h.out_of_ne_prn hne)]
    exact h.setOut hne o

/-- Settles O37. A fault leaves the output, and is taken or not whatever was output; where the instruction completes, what it
appends is `Completes.out_of_prn`, and the past is frame by `Completes.replaceOut`. -/
theorem onlyPrnAppendsOutput : Obligations.OnlyPrnAppendsOutput := by
  refine ⟨fun i s t h => ?_, fun i s o => ?_⟩
  · obtain hok | ⟨f, rfl, -⟩ := exec_cases h
    · by_cases hprn : ∃ a, i = .prn a
      · obtain ⟨a, rfl⟩ := hprn
        obtain ⟨ha, hout⟩ := hok.out_of_prn
        exact .inr ⟨a, ha, rfl, hout⟩
      · exact .inl (hok.out_of_ne_prn fun a e => hprn ⟨a, e⟩)
    · exact .inl rfl
  · exact exec_eq_onNext (g := State.replaceOut o s.out.length) rfl
      (fun f => (replaceOut_of_unchanged (raise_out s f) o).symm) fun t ht => ht.replaceOut o

/-- The state without its memory. -/
def State.forgetMem (t : State) : State := { t with mem := [] }

theorem cell_setCell_ne (s : State) {a k : Nat} (h : k ≠ a) (v : Byte) : (s.setCell a v).cell k = s.cell k :=
  get_set_ne h

/-- An instruction that completes does so whatever a cell holds that it does not pop, and leaves all but memory the same
(R31). -/
theorem Completes.forget_mem {i : Instr} {s t : State} (h : Completes s t i) {ad : Nat}
    (had : (∃ a, i = .pop a) ∨ i = .ret → ad ≠ s.sp.toNat) (v : Byte) :
    ∃ t', Completes (s.setCell ad v) t' i ∧ t'.forgetMem = t.forgetMem := by
  cases i with
  | hlt => cases h; exact ⟨_, rfl, rfl⟩
  | ldi a _ | prn a | push a | jmp a => obtain ⟨ra, ha, rfl⟩ := h; exact ⟨_, ⟨ra, ha, rfl⟩, rfl⟩
  | add a b | mul a b | cmp a b => obtain ⟨ra, rb, ha, hb, rfl⟩ := h; exact ⟨_, ⟨ra, rb, ha, hb, rfl⟩, rfl⟩
  | call a => obtain ⟨ra, ha, hpc, rfl⟩ := h; exact ⟨_, ⟨ra, ha, hpc, rfl⟩, rfl⟩
  | jeq a | jne a => obtain ⟨ra, ha, rfl⟩ := h; exact ⟨_, ⟨ra, ha, rfl⟩, by rw [setCell_fl]; split <;> rfl⟩
  | pop a =>
    obtain ⟨ra, ha, rfl⟩ := h
    refine ⟨_, ⟨ra, ha, rfl⟩, ?_⟩
    rw [← cell_setCell_ne s (had (.inl ⟨a, rfl⟩)).symm v]
    rfl
  | ret =>
    cases h
    refine ⟨_, rfl, ?_⟩
    rw [← cell_setCell_ne s (had (.inr rfl)).symm v]
    rfl

/-- Settles O38. A fault is taken or not whatever memory holds; where the instruction completes, this is
`Completes.forget_mem`. -/
theorem onlyPopAndRetReadData : Obligations.OnlyPopAndRetReadData := fun _ _ _ v had =>
  onNext_exec_eq (g := State.forgetMem) (g' := State.forgetMem) rfl (fun _ => rfl) fun _ ht => ht.forget_mem had v

end Sys2Proof.Machine

/-! ### The invariant of a step, and what else every step keeps -/

namespace Sys2Proof.Machine

open Claims

/-- What a step does, without its phases: the instruction fetched completes, or a fault is taken in the state before. -/
theorem step_completes_or_raises {s t : State} (h : step s = .next t) :
    (∃ i, s.fetch = .ok i ∧ Completes s t i) ∨ ∃ f, t = s.raise f := by
  obtain ⟨-, ⟨f, -, rfl⟩ | ⟨i, hf, hexec⟩⟩ := step_cases h
  · exact .inr ⟨f, rfl⟩
  · obtain hok | ⟨f, rfl, -⟩ := exec_cases hexec
    · exact .inl ⟨i, hf, hok⟩
    · exact .inr ⟨f, rfl⟩

/-- A fetched instruction ends at address 255 at the latest (R102). -/
theorem length_le_of_fetch {s : State} {i : Instr} (h : s.fetch = .ok i) :
    s.pc.toNat + (encode i).length ≤ 256 := (holds_of_fetch h).1.length_le

/-- An instruction that ends inside memory leaves PC inside memory, or one past its own last byte (R73). -/
theorem Completes.pc_le {i : Instr} {s t : State} (h : Completes s t i)
    (hend : s.pc.toNat + (encode i).length ≤ 256) :
    t.pc.toNat ≤ 255 ∨ t.pc.toNat = s.pc.toNat + (encode i).length := by
  obtain hpc | ⟨v, hpc⟩ := h.pc_cases
  · exact .inr (by rw [hpc, advance_pc_toNat hend])
  · refine .inl ?_
    rw [hpc, BitVec.toNat_setWidth_of_le (by decide)]
    exact byte_le v

/-- Settles O40. What is fetched ends inside memory (`length_le_of_fetch`), and then so does PC or it is one past the
instruction (`Completes.pc_le`). -/
theorem programCounterBound : Obligations.ProgramCounterBound := by
  intro s t h ht
  obtain ⟨i, hf, hok⟩ | ⟨f, rfl⟩ := step_completes_or_raises h
  · have hend := length_le_of_fetch hf
    have hpc := hok.pc_le hend
    exact ⟨by omega, fun h256 => ⟨i, hf, by omega⟩⟩
  · exact absurd (raise_phase s f) ht

theorem step_cfg {s t : State} (h : step s = .next t) : t.cfg = s.cfg := by
  obtain ⟨i, -, hok⟩ | ⟨f, rfl⟩ := step_completes_or_raises h
  · exact hok.cfg
  · rfl

/-- Settles O42: neither an instruction that completes nor a fault writes the parameter (`step_cfg`). -/
theorem parameterNeverChanges : Obligations.ParameterNeverChanges := fun _ _ => step_cfg

/-- A step leaves FL or puts the result of a comparison there (R16). -/
theorem step_fl_cases {s t : State} (h : step s = .next t) :
    t.fl = s.fl ∨ ∃ x y, t.fl = compareFlags s.cfg.cmpClearsFl s.fl x y := by
  obtain ⟨i, -, hok⟩ | ⟨f, rfl⟩ := step_completes_or_raises h
  · exact hok.fl_cases.imp_right And.right
  · exact .inl rfl

/-- With the parameter false a comparison sets bits and clears none (R88). -/
theorem compareFlags_keeps {fl : Byte} {k : Nat} (h : fl.getLsbD k = true) (x y : Byte) :
    (compareFlags false fl x y).getLsbD k = true := by
  obtain ⟨-, hfl⟩ | ⟨-, hfl⟩ | ⟨-, hfl⟩ := compareFlags_cases false fl x y <;> simp [hfl, h]

/-- An instruction that can complete does so whenever it is executed. -/
theorem Completes.of_exec {i : Instr} {s t u : State} (hok : Completes s u i) (h : exec i s = .next t) :
    Completes s t i := by
  rw [exec_of_completes hok] at h
  cases h
  exact hok

/-- A well-formed instruction completes, but for a CALL whose return address is no address (R95). -/
theorem exists_completes {i : Instr} (hw : i.WellFormed = true) (s : State)
    (hcall : ∀ a, i = .call a → s.pc.toNat + 2 ≤ 255) : ∃ t, Completes s t i := by
  cases i with
  | hlt | ret => exact ⟨_, rfl⟩
  | ldi a _ | prn a | push a | pop a | jmp a | jeq a | jne a =>
    exact ⟨_, ⟨a.toNat, of_decide_eq_true hw⟩, rfl, rfl⟩
  | call a => exact ⟨_, ⟨a.toNat, of_decide_eq_true hw⟩, rfl, hcall a rfl, rfl⟩
  | add a b | mul a b | cmp a b =>
    obtain ⟨ha, hb⟩ := Bool.and_eq_true_iff.1 hw
    exact ⟨_, ⟨a.toNat, of_decide_eq_true ha⟩, ⟨b.toNat, of_decide_eq_true hb⟩, rfl, rfl, rfl⟩

/-- Settles O43. A step changes FL by a comparison at most, which clears no bit (`compareFlags_keeps`); where the branches
then go is `Completes.pc_of_jeq` and `Completes.pc_of_jne`. -/
theorem stickyFlagsStaySet : Obligations.StickyFlagsStaySet := by
  refine ⟨fun s t hcfg h k hk => ?_, fun a s t ha hE => ⟨fun h => ?_, fun h => ?_⟩⟩
  · obtain hfl | ⟨x, y, hfl⟩ := step_fl_cases h
    · rwa [hfl]
    · rw [hfl, hcfg]
      exact compareFlags_keeps hk x y
  · obtain ⟨u, hu⟩ := exists_completes (i := .jeq a) (decide_eq_true ha) s nofun
    have hpc := (hu.of_exec h).pc_of_jeq ha
    rwa [flagE, if_pos hE] at hpc
  · obtain ⟨u, hu⟩ := exists_completes (i := .jne a) (decide_eq_true ha) s nofun
    have hpc := (hu.of_exec h).pc_of_jne ha
    rwa [flagE, if_pos hE] at hpc

/-- With the parameter true a comparison leaves exactly one of E, G and L (R88). -/
theorem compareFlags_oneHot (fl x y : Byte) :
    compareFlags true fl x y = 0x01#8 ∨ compareFlags true fl x y = 0x02#8 ∨ compareFlags true fl x y = 0x04#8 := by
  have hcases := compareFlags_cases true fl x y
  rw [if_pos rfl, BitVec.zero_or, BitVec.zero_or, BitVec.zero_or] at hcases
  exact hcases.imp And.right (Or.imp And.right And.right)

/-- Settles O44. A step changes FL by a comparison at most, and that leaves one flag (`compareFlags_oneHot`). -/
theorem clearedFlagsAreOneHot : Obligations.ClearedFlagsAreOneHot := by
  refine ⟨fun cfg => .inl rfl, fun s t hcfg hs h => ?_⟩
  obtain hfl | ⟨x, y, hfl⟩ := step_fl_cases h
  · rwa [State.FlOneHot, hfl]
  · rw [hcfg] at hfl
    rw [State.FlOneHot, hfl]
    exact .inr (compareFlags_oneHot s.fl x y)

/-- A comparison sets no bit above the three flags (R15). -/
theorem compareFlags_low {fl : Byte} (h : fl.toNat < 8) (clears : Bool) (x y : Byte) :
    (compareFlags clears fl x y).toNat < 8 := by
  have base : (if clears then 0x00#8 else fl).toNat < 2 ^ 3 := by
    cases clears
    · exact h
    · rw [if_pos rfl]; decide
  obtain ⟨-, hfl⟩ | ⟨-, hfl⟩ | ⟨-, hfl⟩ := compareFlags_cases clears fl x y
  all_goals
    rw [hfl, BitVec.toNat_or]
    exact Nat.or_lt_two_pow base (by decide)

/-- A fault taken in an enabled state of the machine leads to a state of the machine (R107). -/
theorem State.Inv.raise {s : State} (hs : s.Inv) (he : s.Enabled) (f : FaultRecord) : (s.raise f).Inv where
  pc_le := hs.pc_le
  fl_low := hs.fl_low
  halted_iff := by simp [(hs.enabled_iff.1 he).1]
  faulted_iff := by simp
  mem_wf := hs.mem_wf

/-- An instruction that lies inside memory and completes in an enabled state of the machine leaves a state of the machine;
the loop test makes the phase fit the running flag. -/
theorem Completes.inv {i : Instr} {s t : State} (h : Completes s t i) (hs : s.Inv) (he : s.Enabled)
    (hend : s.pc.toNat + (encode i).length ≤ 256) : t.Inv where
  pc_le := by have := h.pc_le hend; omega
  fl_low := by
    obtain hfl | ⟨-, x, y, hfl⟩ := h.fl_cases
    · rw [hfl]; exact hs.fl_low
    · rw [hfl]; exact compareFlags_low hs.fl_low _ x y
  halted_iff := by
    obtain ⟨u, rfl, -⟩ := h.ends
    cases hu : u.running <;> simp [hu]
  faulted_iff := by
    rw [h.fault, (hs.enabled_iff.1 he).2]
    obtain ⟨u, rfl, -⟩ := h.ends
    exact iff_of_false (loopTest_phase_ne u).1 fun hne => hne rfl
  mem_wf := by
    obtain hmem | ⟨-, v, hmem⟩ := h.mem_cases
    · rw [hmem]; exact hs.mem_wf
    · rw [hmem]; exact wf_set hs.mem_wf (byte_le _) v

/-- Settles O56. A step completes a fetched instruction, which lies inside memory (`Completes.inv`), or takes a fault
(`State.Inv.raise`). -/
theorem everyStepKeepsInvariant : Obligations.EveryStepKeepsInvariant := by
  intro s t hs h
  have he : s.Enabled := (step_cases h).1
  obtain ⟨i, hf, hok⟩ | ⟨f, rfl⟩ := step_completes_or_raises h
  · exact hok.inv hs he (length_le_of_fetch hf)
  · exact hs.raise he f

/-! ### The states that runs start from -/

/-- A machine reset, with any canonical memory, meets the invariant. -/
theorem inv_of_reset_with_mem (cfg : Config) {m : Memory} (hm : Memory.wf m = true) :
    State.Inv { State.resetWith cfg with mem := m } where
  pc_le := Nat.zero_le 256
  fl_low := (by decide : (0x00#8).toNat < 8)
  halted_iff := by simp [State.resetWith]
  faulted_iff := by simp [State.resetWith]
  mem_wf := hm

theorem inv_resetWith (cfg : Config) : (State.resetWith cfg).Inv := inv_of_reset_with_mem cfg (wf_reset cfg)

/-- Settles O55: the empty memory of the reset state is canonical. -/
theorem invariantHoldsAtReset : Obligations.InvariantHoldsAtReset := ⟨inv_resetWith _, inv_resetWith⟩

/-- Settles O53: every piece is read off `State.resetWith`. -/
theorem resetState : Obligations.ResetState := by
  refine ⟨rfl, rfl, rfl, fun r hr => ?_, rfl, fun _ _ => rfl, rfl, rfl, rfl⟩
  interval_cases r <;> rfl

/-- A loaded program stands in the cells from 0 up, over cells that are blank (R45). -/
theorem launch_cell (cfg : Config) (p : List Byte) {k : Nat} (hk : k ≤ 255) :
    (State.launch cfg p).cell k = p[k]?.getD 0x00#8 := by
  refine (get_place (m := []) rfl 0 p k hk).trans ?_
  by_cases hlt : k < p.length
  · simp [hlt]
  · simp [hlt, Memory.get, Memory.blank]

/-- Settles O54. The cells are those of `launch_cell`, and the placed memory is canonical (`wf_place`). -/
theorem loadedProgram : Obligations.LoadedProgram := by
  refine fun cfg p hp => ⟨fun k hk => ?_, fun k hk hlast => ?_, rfl,
    inv_of_reset_with_mem cfg (wf_place rfl 0 p)⟩
  · rw [launch_cell cfg p (by omega), List.getElem?_eq_getElem hk, Option.getD_some]
  · rw [launch_cell cfg p hlast, List.getElem?_eq_none hk, Option.getD_none]

/-! ### Phases -/

/-- What a step that clears the running flag has fetched is HLT (R17). -/
theorem fetch_of_step_stops {s t : State} (hs : s.running = true) (h : step s = .next t) (ht : t.running = false) :
    s.fetch = .ok .hlt := by
  obtain ⟨i, hf, hok⟩ | ⟨f, rfl⟩ := step_completes_or_raises h
  · obtain hsame | ⟨rfl, -⟩ := hok.running
    · simp [hsame, hs] at ht
    · exact hf
  · simp [hs] at ht

/-- A step of a running machine halts it exactly by HLT (R116). -/
theorem step_halts_iff {s t : State} (hs : s.running = true) (h : step s = .next t) :
    t.phase = .halted ↔ s.fetch = .ok .hlt := by
  refine ⟨fun ht => fetch_of_step_stops hs h (step_running_of_halted h ht), fun hf => ?_⟩
  rw [step_of_fetch_ok (step_cases h).1 hf, exec_hlt] at h
  cases h
  rfl

theorem step_ne_next_of_faulted {t : State} (ht : t.phase = .faulted) (u : State) : step t ≠ .next u := by
  intro h
  simpa [State.Enabled, ht] using (step_cases h).1

/-- The phase a step leads to is the loop test's, by the running flag, or Faulted (R116). -/
theorem step_phase_cases {s t : State} (h : step s = .next t) :
    (t.phase = .running ∧ t.running = true) ∨ (t.phase = .halted ∧ t.running = false) ∨
      (t.phase = .faulted ∧ ∃ f, t = s.raise f) := by
  obtain ⟨u, rfl⟩ | ⟨f, rfl⟩ := step_ends h
  · cases hu : u.running
    · exact .inr (.inl ⟨by simp [hu], hu⟩)
    · exact .inl ⟨by simp [hu], hu⟩
  · exact .inr (.inr ⟨rfl, f, rfl⟩)

theorem exitStatus_of_halted {s : State} (h : s.phase = .halted) : s.exitStatus = some 0 := by
  rw [State.exitStatus, h]

theorem exitStatus_of_faulted {s : State} (h : s.phase = .faulted) : s.exitStatus = some Config.exitFault := by
  rw [State.exitStatus, h]

/-- Settles O41. Where a step leads is `step_phase_cases`, and when it halts a machine that meets the invariant, and so
runs, is `step_halts_iff`. -/
theorem phaseTransitions : Obligations.PhaseTransitions := by
  refine ⟨rfl, fun s t h => ⟨(step_cases h).1, step_phase_cases h, fun hs => ?_⟩, fun s => ⟨fun hp => ?_, fun hp => ?_⟩⟩
  · exact step_halts_iff (hs.enabled_iff.1 (step_cases h).1).1 h
  · exact ⟨exitStatus_of_halted hp, step_ne_next_of_halted hp⟩
  · exact ⟨⟨_, exitStatus_of_faulted hp, exitFault_ne_zero⟩, step_ne_next_of_faulted hp⟩

/-- Settles O10: the phase is the reason why there is no step. -/
theorem stepAfterTheEndStops : Obligations.StepAfterTheEndStops := fun s =>
  ⟨fun hp => by rw [step, State.stopReason, hp], fun hp => by rw [step, State.stopReason, hp]⟩

end Sys2Proof.Machine

/-! ### Faults in the order of R106 -/

namespace Sys2Proof

open Claims

/-- A row of the table takes as many operands as its opcode's top two bits say (R50). -/
theorem arity_of_mem_opcodeTable : ∀ row ∈ opcodeTable, row.2.arity = topTwoBits row.1 := by
  decide

theorem arity_of_lookup {op : Byte} {sh : Shape} (h : lookup op = some sh) : sh.arity = topTwoBits op :=
  arity_of_mem_opcodeTable _ (lookup_mem h)

theorem exists_lookup_of_mem {op : Byte} (h : op ∈ thirteenOpcodes) : ∃ sh, lookup op = some sh := by
  rw [← Option.ne_none_iff_exists', ne_eq, lookup_eq_none, not_not]
  exact h

theorem topTwoBits_le_of_mem {op : Byte} (h : op ∈ thirteenOpcodes) : topTwoBits op ≤ 2 := by
  obtain ⟨sh, hl⟩ := exists_lookup_of_mem h
  rw [← arity_of_lookup hl]
  exact sh.arity_le

/-- An opcode with enough operand bytes after it begins the encoding of an instruction (R51). -/
theorem exists_encode_prefix {op : Byte} {sh : Shape} {bs : List Byte} (hfit : sh.Fits op)
    (hlen : sh.arity ≤ bs.length) : ∃ i, encode i <+: op :: bs := by
  match sh, bs, hlen with
  | .f0 i, bs, _ => exact ⟨i, bs, by rw [hfit]; rfl⟩
  | .f1 mk, a :: bs, _ => exact ⟨mk a, bs, by rw [hfit]; rfl⟩
  | .f2 mk, a :: b :: bs, _ => exact ⟨mk a b, bs, by rw [hfit]; rfl⟩
  | .f1 _, [], h | .f2 _, [], h | .f2 _, [_], h => simp [Shape.arity] at h

/-- The first operand of an instruction that has one is a register operand (R53). -/
theorem registerOperands_cons {i : Instr} {a : Byte} {bs : List Byte} (h : i.operands = a :: bs) :
    ∃ bs', i.registerOperands = a :: bs' := by
  cases i with
  | ldi r imm => exact ⟨[], congrArg (·.take 1) h⟩
  | _ => exact ⟨bs, h⟩

/-- All operands of an instruction other than LDI are register operands (R54). -/
theorem registerOperands_eq {i : Instr} (h : i.opcode ≠ 0x82#8) : i.registerOperands = i.operands := by
  cases i with
  | ldi r imm => exact absurd rfl h
  | _ => rfl

theorem badRegister_first {i : Instr} {a : Byte} {bs : List Byte} (h : i.operands = a :: bs) (ha : 7 < a.toNat) :
    i.badRegister = some a := by
  obtain ⟨bs', hregs⟩ := registerOperands_cons h
  rw [badRegister_eq_find, hregs, List.find?_cons_of_pos (by simpa using ha)]

theorem badRegister_second {i : Instr} {a b : Byte} (h : i.operands = [a, b]) (hi : i.opcode ≠ 0x82#8)
    (ha : a.toNat ≤ 7) (hb : 7 < b.toNat) : i.badRegister = some b := by
  rw [badRegister_eq_find, registerOperands_eq hi, h, List.find?_cons_of_neg (by simpa using ha),
    List.find?_cons_of_pos (by simpa using hb)]

end Sys2Proof

namespace Sys2Proof.Machine

open Claims

/-- With an opcode at PC whose operands lie in memory, an instruction is held there, well formed or not. -/
theorem exists_holds {s : State} (hop : opcodeAt s ∈ thirteenOpcodes)
    (hend : s.pc.toNat + topTwoBits (opcodeAt s) ≤ 255) : ∃ i, s.Holds i := by
  obtain ⟨sh, hl⟩ := exists_lookup_of_mem hop
  obtain ⟨bs, hbytes⟩ := fetchBytes_head (s := s) (by omega)
  have hlen := fetchBytes_tail_length s
  have harity := arity_of_lookup hl
  have hle := sh.arity_le
  rw [hbytes, List.tail_cons] at hlen
  obtain ⟨i, hi⟩ := exists_encode_prefix (fits_of_mem_opcodeTable _ (lookup_mem hl)) (by omega : sh.arity ≤ bs.length)
  exact ⟨i, by rwa [State.Holds, hbytes]⟩

/-- The operands of an instruction held at PC are the bytes after the opcode, as many as the opcode says (R51). -/
theorem State.Holds.operands_eq {s : State} {i : Instr} (h : s.Holds i) :
    i.operands = [operandA s, operandB s].take (topTwoBits (opcodeAt s)) := by
  have hle := operands_length_le i
  rw [h.opcode_eq, ← operands_length]
  refine List.ext_getElem (by simp; omega) fun k hk _ => ?_
  have hbyte : s.cell (s.pc.toNat + (k + 1)) = i.operands[k] := (h.cell_eq (k := k + 1) (Nat.succ_lt_succ hk)).2
  rw [← hbyte, List.getElem_take]
  match k, (by omega : k < 2) with
  | 0, _ => rfl
  | 1, _ => rfl

variable {s : State}

/-- From PC past the opcode's operands: the fault of the first that memory does not reach, at address 256 (R102). -/
theorem step_missing_operand (he : s.Enabled) (hpc : s.pc.toNat ≤ 255) (hop : opcodeAt s ∈ thirteenOpcodes)
    (hend : 255 < s.pc.toNat + topTwoBits (opcodeAt s)) : step s = .next (s.raise (.addressRange 256)) := by
  obtain ⟨sh, hl⟩ := exists_lookup_of_mem hop
  exact operandFetchFaults_of_lookup hl s he hpc rfl (by rwa [arity_of_lookup hl])

/-- With the operands in memory, the first register operand is checked first (R103, R106). -/
theorem step_illegal_first (he : s.Enabled) (hend : s.pc.toNat + topTwoBits (opcodeAt s) ≤ 255)
    (hop : opcodeAt s ∈ thirteenOpcodes) (hn : 1 ≤ topTwoBits (opcodeAt s)) (ha : 7 < (operandA s).toNat) :
    step s = .next (s.raise (.registerIndex (operandA s))) := by
  obtain ⟨i, hi⟩ := exists_holds hop hend
  have hoperands : i.operands = operandA s :: [operandB s].take (topTwoBits (opcodeAt s) - 1) := by
    rw [hi.operands_eq, List.take_cons (by omega)]
  exact step_of_fetch_error he (hi.fetch_error (badRegister_first hoperands ha))

/-- Then the second, of an instruction other than LDI (R54, R103, R106). -/
theorem step_illegal_second (he : s.Enabled) (hend : s.pc.toNat + 2 ≤ 255) (hop : opcodeAt s ∈ thirteenOpcodes)
    (hn : topTwoBits (opcodeAt s) = 2) (hldi : opcodeAt s ≠ 0x82#8) (ha : (operandA s).toNat ≤ 7)
    (hb : 7 < (operandB s).toNat) : step s = .next (s.raise (.registerIndex (operandB s))) := by
  obtain ⟨i, hi⟩ := exists_holds hop (by omega)
  have hoperands : i.operands = [operandA s, operandB s] := by
    rw [hi.operands_eq, hn]
    rfl
  exact step_of_fetch_error he (hi.fetch_error (badRegister_second hoperands (hi.opcode_eq ▸ hldi) ha hb))

/-- The bytes of a CALL that ends in memory are held at PC. -/
theorem holds_call (hpc : s.pc.toNat + 1 ≤ 255) (hop : opcodeAt s = 0x50#8) : s.Holds (.call (operandA s)) := by
  refine holds_of_cells fun k hk => ?_
  match k, (hk : k < 2) with
  | 0, _ => exact ⟨by omega, hop⟩
  | 1, _ => exact ⟨hpc, rfl⟩

/-- Last of all, CALL checks its return address (R95, R106). -/
theorem step_call_past_end (he : s.Enabled) (hpc : s.pc.toNat + 1 ≤ 255) (hop : opcodeAt s = 0x50#8)
    (ha : (operandA s).toNat ≤ 7) (hend : 255 < s.pc.toNat + 2) :
    step s = .next (s.raise (.addressRange (s.pc.toNat + 2))) := by
  have ha : (operandA s).toNat < 8 := by omega
  rw [step_of_fetch_ok he ((holds_call hpc hop).fetch_ok (decide_eq_true ha))]
  exact exec_call_past_end ha hend

/-- Settles O11, a lemma for each place in the order. The datum of an operand that is not there is 256, whichever
it is. -/
theorem faultPriority : Obligations.FaultPriority := by
  refine fun s he => ⟨step_past_end he, fun hpc hop => step_of_fetch_error he (fetch_unknown hpc hop),
    fun hpc hop hn hend => ?_, fun hpc hop hn hend => ?_, step_illegal_first he, step_illegal_second he,
    step_call_past_end he, fun f t _ => step_raise_ne_next s f t⟩
  · rw [(by omega : s.pc.toNat + 1 = 256)]
    exact step_missing_operand he hpc hop (by omega)
  · rw [(by omega : s.pc.toNat + 2 = 256)]
    exact step_missing_operand he (by omega) hop (by omega)

/-! ### Exactly when AddressRange is raised (R102) -/

theorem next_raise_injective {f g : FaultRecord}
    (h : (.next (s.raise f) : Host.Outcome State Fault Refusal) = .next (s.raise g)) : f = g :=
  raise_injective (Host.Outcome.next.inj h)

/-- An instruction held at PC is fetched or refused for a register: its bytes are all there. -/
theorem State.Holds.fetch_ne_addressRange {i : Instr} (h : s.Holds i) (ad : Nat) :
    s.fetch ≠ .error (.addressRange ad) := by
  cases hv : i.badRegister with
  | none => rw [h.fetch_ok ((badRegister_eq_none i).1 hv)]; exact nofun
  | some v => rw [h.fetch_error hv]; exact nofun

/-- Executing an instruction raises AddressRange only for CALL's return address (R95). -/
theorem call_of_exec_addressRange {i : Instr} {ad : Nat} (h : exec i s = .next (s.raise (.addressRange ad))) :
    ∃ a, i = .call a ∧ 255 < s.pc.toNat + 2 ∧ ad = s.pc.toNat + 2 := by
  obtain hok | ⟨v, hv⟩ | ⟨a, hi, hend, ha⟩ := exec_completes_or_raises h
  · obtain ⟨u, hu, -⟩ := hok.ends
    exact absurd (congrArg State.phase hu).symm (loopTest_phase_ne u).1
  · cases raise_injective hv
  · cases raise_injective ha
    exact ⟨a, hi, hend, rfl⟩

/-- A step that raises AddressRange with the instruction's bytes all there is a CALL of a legal register at 254. -/
theorem call_of_step_addressRange {i : Instr} (hi : s.Holds i) {ad : Nat}
    (h : step s = .next (s.raise (.addressRange ad))) :
    ad = 256 ∧ s.pc.toNat = 254 ∧ opcodeAt s = 0x50#8 ∧ (operandA s).toNat ≤ 7 := by
  obtain ⟨-, ⟨f, hf, hraise⟩ | ⟨j, hf, hexec⟩⟩ := step_cases h
  · rw [← raise_injective hraise] at hf
    exact absurd hf (hi.fetch_ne_addressRange ad)
  · obtain ⟨a, rfl, hend, rfl⟩ := call_of_exec_addressRange hexec
    obtain ⟨hj, hw⟩ := holds_of_fetch hf
    have hpc : s.pc.toNat + 2 ≤ 256 := hj.length_le
    have hoperand : operandA s = a := (hj.cell_eq (k := 1) (Nat.lt_succ_self 1)).2
    have ha : a.toNat < 8 := of_decide_eq_true hw
    exact ⟨by omega, by omega, hj.opcode_eq, by rw [hoperand]; omega⟩

/-- Settles O13. One way each case is a clause of the order of faults; the other way the step is followed through that order,
and past the operands' fetch only CALL is left (`call_of_step_addressRange`). -/
theorem addressRangeExactCases : Obligations.AddressRangeExactCases := by
  refine fun s ad he hle => ⟨fun h => ?_, ?_⟩
  · by_cases hpc : s.pc.toNat ≤ 255
    · by_cases hop : opcodeAt s ∈ thirteenOpcodes
      · by_cases hend : s.pc.toNat + topTwoBits (opcodeAt s) ≤ 255
        · obtain ⟨i, hi⟩ := exists_holds hop hend
          obtain ⟨had, hcall⟩ := call_of_step_addressRange hi h
          exact ⟨had, .inr (.inr (.inr hcall))⟩
        · have hn := topTwoBits_le_of_mem hop
          rw [step_missing_operand he hpc hop (by omega)] at h
          cases next_raise_injective h
          refine ⟨rfl, ?_⟩
          by_cases h255 : s.pc.toNat = 255
          · exact .inr (.inl ⟨h255, hop, by omega⟩)
          · exact .inr (.inr (.inl ⟨by omega, hop, by omega⟩))
      · rw [step_of_fetch_error he (fetch_unknown hpc hop)] at h
        cases next_raise_injective h
    · rw [step_past_end he (by omega)] at h
      cases next_raise_injective h
      exact ⟨by omega, .inl (by omega)⟩
  · rintro ⟨rfl, hpc | ⟨hpc, hop, hn⟩ | ⟨hpc, hop, hn⟩ | ⟨hpc, hop, ha⟩⟩
    · rw [← hpc]
      exact step_past_end he (by omega)
    · exact step_missing_operand he (by omega) hop (by omega)
    · exact step_missing_operand he (by omega) hop (by omega)
    · rw [(by omega : 256 = s.pc.toNat + 2)]
      exact step_call_past_end he (by omega) hop ha (by omega)

/-- Settles O14, by the check in front of every instruction that has a register operand; LDI of a legal register completes,
whatever its immediate. -/
theorem registerOperandChecks : Obligations.RegisterOperandChecks := by
  refine ⟨fun a b ha => ?_, fun a b ha hb => ?_, fun a b s ha => ?_⟩
  · have one {i : Instr} {f : State → Reg → Except FaultRecord State} (hi : ∀ s, exec i s = s.withReg a (f s)) :
        RefusesRegister i a := refusesRegister_of_withReg hi ha
    have two {i : Instr} {f : State → Reg → Reg → Except FaultRecord State}
        (hi : ∀ s, exec i s = s.withRegs a b (f s)) : RefusesRegister i a := (refusesRegister_of_withRegs hi).1 ha
    exact ⟨one fun _ => rfl, one fun _ => rfl, two fun _ => rfl, two fun _ => rfl, two fun _ => rfl, one fun _ => rfl,
      one fun _ => rfl, one fun _ => rfl, one fun _ => rfl, one fun _ => rfl, one fun _ => rfl⟩
  · have two {i : Instr} {f : State → Reg → Reg → Except FaultRecord State}
        (hi : ∀ s, exec i s = s.withRegs a b (f s)) : RefusesRegister i b := (refusesRegister_of_withRegs hi).2 ha hb
    exact ⟨two fun _ => rfl, two fun _ => rfl, two fun _ => rfl⟩
  · obtain ⟨t, hok⟩ := exists_completes (i := .ldi a b) (decide_eq_true (by omega)) s nofun
    obtain ⟨u, rfl, -⟩ := hok.ends
    exact ⟨_, exec_of_completes hok, (loopTest_phase_ne u).1⟩

end Sys2Proof.Machine

/-! ### Memory and the stack as a whole (R42, R44, R90) -/

namespace Sys2Proof.Machine

theorem cell_setCell_same {s : State} (hm : Memory.wf s.mem = true) (a : Nat) (v : Byte) :
    (s.setCell a v).cell a = v := by
  rw [State.cell, setCell_mem, get_set hm, if_pos rfl]

/-- Settles O45, by what the primitives do on either side of 255 and by what a written memory reads. -/
theorem memoryPrimitives : Obligations.MemoryPrimitives := fun s addr v hm =>
  ⟨fun h => ⟨memRead_error h, memWrite_error h⟩, fun h =>
    ⟨memRead_ok h, s.setCell addr v, memWrite_ok h, wf_set hm h v, cell_setCell_same hm addr v,
      fun _ hk => cell_setCell_ne s hk v, rfl⟩⟩

/-- Settles O46: above 255 canonical memories read alike in any case. -/
theorem canonicalMemoryIsExtensional : Obligations.CanonicalMemoryIsExtensional := by
  refine fun m n hm hn h => eq_of_get hm hn fun a => ?_
  by_cases ha : a ≤ 255
  · exact h a ha
  · rw [get_above hm (by omega), get_above hn (by omega)]

/-- From `s` to `t` the byte `v` has been pushed: SP is one lower and points at it (R90). -/
structure State.Pushed (s t : State) (v : Byte) : Prop where
  sp : t.regs[7] = s.regs[7] - 1#8
  top : t.cell t.regs[7].toNat = v

/-- From `s` to `t` a byte has been popped: SP is one higher (R90). -/
def State.Popped (s t : State) : Prop := t.regs[7] = s.regs[7] + 1#8

/-- A push and then a pop restore SP, across the wrap at 0 as well (R90, D11). -/
theorem State.Pushed.sp_restored {s t u w : State} {v : Byte} (hpush : s.Pushed t v) (hsp : u.regs[7] = t.regs[7])
    (hpop : u.Popped w) : w.regs[7] = s.regs[7] := by
  rw [hpop, hsp, hpush.sp, BitVec.sub_add_cancel]

theorem State.Pushed.cell {s t : State} {v : Byte} (h : s.Pushed t v) : t.cell (s.regs[7] - 1#8).toNat = v := by
  rw [← h.sp, h.top]

/-- The decrement of SP and the store at it, by which PUSH and CALL push. -/
theorem pushed_setCell {s : State} (hm : Memory.wf s.mem = true) (v : Byte) :
    s.Pushed ((s.setSp (s.sp - 1)).setCell (s.sp - 1).toNat v) v := by
  have hsp : ((s.setSp (s.sp - 1)).setCell (s.sp - 1).toNat v).regs[7] = s.sp - 1 := setSp_getElem s _ (by decide)
  refine ⟨hsp, ?_⟩
  rw [hsp]
  exact cell_setCell_same (s := s.setSp _) hm _ v

namespace Completes

variable {s t : State} {a b : Byte}

/-- A machine that an instruction leaves running takes a further step (R70, R75). -/
theorem enabled {i : Instr} (h : Completes s t i) (ht : t.running = true) : t.Enabled := by
  obtain ⟨u, rfl, -⟩ := h.ends
  exact .inr (if_pos ht)

theorem result_of_ldi {imm : Byte} (h : Completes s t (.ldi a imm)) (ha : a.toNat < 8) : t.regs[a.toNat] = imm := by
  obtain ⟨ra, hra, rfl⟩ := h
  rw [regs_toNat_eq hra]
  exact readReg_writeReg_same s ra imm

/-- PUSH pushes its register's byte, of R7 the SP already decremented (R91, D10). -/
theorem pushed_of_push (h : Completes s t (.push a)) (hm : Memory.wf s.mem = true) (ha : a.toNat < 8) :
    s.Pushed t (if a.toNat = 7 then s.regs[7] - 1#8 else s.regs[a.toNat]) := by
  obtain ⟨ra, hra, rfl⟩ := h
  rw [← setSp_getElem s _ ha, regs_toNat_eq hra]
  obtain ⟨hsp, htop⟩ := pushed_setCell hm (s.setSp (s.sp - 1)).regs[ra]
  exact ⟨hsp, htop⟩

/-- CALL pushes its return address (R95). -/
theorem pushed_of_call (h : Completes s t (.call a)) (hm : Memory.wf s.mem = true) :
    s.Pushed t (BitVec.ofNat 8 (s.pc.toNat + 2)) := by
  obtain ⟨ra, -, -, rfl⟩ := h
  obtain ⟨hsp, htop⟩ := pushed_setCell hm (BitVec.ofNat 8 (s.pc.toNat + 2))
  exact ⟨hsp, htop⟩

theorem popped_of_ret (h : Completes s t .ret) : s.Popped t := by
  cases h
  exact setSp_getElem _ _ (by decide)

/-- POP of a register other than R7 loads the byte at SP and pops it (R92). -/
theorem popped_of_pop (h : Completes s t (.pop a)) (ha : a.toNat < 7) :
    s.Popped t ∧ t.regs[a.toNat] = s.cell s.regs[7].toNat := by
  obtain ⟨ra, hra, ht⟩ := h
  have hregs : t.regs = (s.regs.set ra (s.cell s.regs[7].toNat)).set 7 (s.regs[7] + 1#8) := by
    rw [ht]
    exact (writeReg_dropByte_regs s ra.isLt _).trans (if_neg (by omega))
  constructor
  · rw [State.Popped, hregs, Vector.getElem_set_self]
  · rw [hregs, Vector.getElem_set_ne _ _ (by omega), regs_toNat_eq hra]
    exact Vector.getElem_set_self _

end Completes

/-- PUSH completes, and pushes its register. -/
theorem exists_push {s : State} {a : Byte} (hm : Memory.wf s.mem = true) (ha : a.toNat < 8) :
    ∃ t, Completes s t (.push a) ∧
      s.Pushed t (if a.toNat = 7 then s.regs[7] - 1#8 else s.regs[a.toNat]) := by
  obtain ⟨t, hok⟩ := exists_completes (i := .push a) (decide_eq_true ha) s nofun
  exact ⟨t, hok, hok.pushed_of_push hm ha⟩

/-- POP of a register other than R7 completes, pops, and loads its register. -/
theorem exists_pop (s : State) {a : Byte} (ha : a.toNat < 7) :
    ∃ t, Completes s t (.pop a) ∧ s.Popped t ∧ t.regs[a.toNat] = s.cell s.regs[7].toNat := by
  obtain ⟨t, hok⟩ := exists_completes (i := .pop a) (decide_eq_true (by omega)) s nofun
  exact ⟨t, hok, hok.popped_of_pop ha⟩

/-- Settles O47. PUSH leaves the byte where PC then is, and what is fetched is read from the cell at PC. -/
theorem storedByteIsFetched : Obligations.StoredByteIsFetched := by
  rintro a _ s ha hm hs hpc rfl
  obtain ⟨t, hok, hpush⟩ := exists_push hm ha
  have hend : (s.regs[7] - 1#8).toNat ≤ 255 := byte_le _
  have htpc : t.pc.toNat = (s.regs[7] - 1#8).toNat := by
    rw [hok.pc_of_advanced rfl]
    exact (advance_pc_toNat (w := 2) (by omega)).trans hpc
  have hop : t.cell t.pc.toNat = _ := htpc ▸ hpush.cell
  obtain ⟨bs, hbytes⟩ := fetchBytes_head (htpc ▸ hend)
  refine ⟨t, exec_of_completes hok, by rw [hbytes, hop]; rfl, fun hhlt => ?_⟩
  have hf : t.fetch = .ok .hlt :=
    fetch_of_lookup_f0 (htpc ▸ hend) (by rw [Claims.opcodeAt, hop, hhlt]; rfl) rfl
  have he : t.Enabled := hok.enabled ((hok.running_of_ne_hlt nofun).trans hs)
  exact ⟨_, (step_of_fetch_ok he hf).trans (exec_hlt t), rfl⟩

/-- Settles O48. POP loads the byte that PUSH left at SP, and the two changes of SP cancel (`State.Pushed.sp_restored`). -/
theorem pushThenPopRoundTrip : Obligations.PushThenPopRoundTrip := by
  intro a b s ha hb hm _
  obtain ⟨t, htok, hpush⟩ := exists_push hm (by omega : a.toNat < 8)
  obtain ⟨u, huok, hpop, hload⟩ := exists_pop t hb
  refine ⟨t, u, exec_of_completes htok, exec_of_completes huok, ?_, hpush.sp_restored rfl hpop⟩
  rw [hload, hpush.top, if_neg (by omega)]

/-- Settles O49. What RET loads is the return address, a byte since CALL has checked it. -/
theorem callThenRetReturns : Obligations.CallThenRetReturns := by
  intro a s t u ha hm hpc h hsp htop
  obtain ⟨t', ht'⟩ := exists_completes (i := .call a) (decide_eq_true ha) s fun _ _ => hpc
  have hpush := (ht'.of_exec h).pushed_of_call hm
  obtain ⟨w, hret⟩ := exists_completes (i := .ret) rfl u nofun
  refine ⟨w, exec_of_completes hret, ?_, hpush.sp_restored hsp hret.popped_of_ret⟩
  have hcell : u.cell u.sp.toNat = BitVec.ofNat 8 (s.pc.toNat + 2) := by
    rw [sp_eq, show u.regs[spReg] = t.regs[7] from hsp, htop, hpush.top]
  rw [hret.pc_of_ret, hcell, BitVec.toNat_ofNat, Nat.mod_eq_of_lt (by omega)]

/-- LDI R7 loads SP and leaves the other registers and memory (R11, R81). -/
theorem exists_ldi_sp (s : State) (v : Byte) : ∃ t, Completes s t (.ldi 7#8 v) ∧ t.regs[7] = v ∧ t.mem = s.mem ∧
    ∀ (n : Nat) (_ : n < 8), n ≠ 7 → t.regs[n] = s.regs[n] := by
  obtain ⟨t, hok⟩ := exists_completes (i := .ldi 7#8 v) rfl s nofun
  refine ⟨t, hok, hok.result_of_ldi (by decide), hok.mem_of_not_push_call fun _ => ⟨nofun, nofun⟩,
    fun n hn h7 => ?_⟩
  exact hok.regs_of_not_written (r := ⟨n, hn⟩) (by simpa [Claims.registersWritten] using h7)

/-- Settles O50. The next PUSH and the next POP start from what LDI R7 left in register 7. -/
theorem stackPointerIsRegisterSeven : Obligations.StackPointerIsRegisterSeven := by
  intro v a s ha hm _
  obtain ⟨t, hok, hsp, hmem, hother⟩ := exists_ldi_sp s v
  obtain ⟨u, hpushok, hpush⟩ := exists_push (s := t) (hmem ▸ hm) (by omega : a.toNat < 8)
  obtain ⟨w, hpopok, hpop, hload⟩ := exists_pop t ha
  refine ⟨t, exec_of_completes hok, hsp, ⟨u, exec_of_completes hpushok, ?_⟩, w, exec_of_completes hpopok, ?_, ?_⟩
  · rw [← hsp, hpush.cell, if_neg (by omega), hother _ _ (by omega)]
  · rw [hload, hsp, State.cell, hmem, State.cell]
  · rw [← hsp]
    exact hpop

end Sys2Proof.Machine

/-! ### Arithmetic and branches (R86 to R88, R98, R99) -/

namespace Sys2Proof.Machine

namespace Completes

variable {s t : State} {a b : Byte}

theorem result_of_add (h : Completes s t (.add a b)) (ha : a.toNat < 8) (hb : b.toNat < 8) :
    t.regs[a.toNat] = BitVec.ofNat 8 (s.regs[a.toNat].toNat + s.regs[b.toNat].toNat) := by
  obtain ⟨ra, rb, hra, hrb, rfl⟩ := h
  rw [regs_toNat_eq hra, regs_toNat_eq hra, regs_toNat_eq hrb]
  exact readReg_writeReg_same s ra _

theorem result_of_mul (h : Completes s t (.mul a b)) (ha : a.toNat < 8) (hb : b.toNat < 8) :
    t.regs[a.toNat] = BitVec.ofNat 8 (s.regs[a.toNat].toNat * s.regs[b.toNat].toNat) := by
  obtain ⟨ra, rb, hra, hrb, rfl⟩ := h
  rw [regs_toNat_eq hra, regs_toNat_eq hra, regs_toNat_eq hrb]
  exact readReg_writeReg_same s ra _

theorem fl_eq_of_cmp (h : Completes s t (.cmp a b)) (ha : a.toNat < 8) (hb : b.toNat < 8) :
    t.fl = compareFlags s.cfg.cmpClearsFl s.fl s.regs[a.toNat] s.regs[b.toNat] := by
  obtain ⟨ra, rb, hra, hrb, hfl⟩ := h.fl_of_cmp
  rw [hfl, regs_toNat_eq hra, regs_toNat_eq hrb]

end Completes

/-- From FL 0 swapping the operands of a comparison keeps E and swaps G and L (R88, R89h). -/
theorem compareFlags_swap (clears : Bool) (x y : Byte) :
    (compareFlags clears 0#8 x y).getLsbD 0 = (compareFlags clears 0#8 y x).getLsbD 0 ∧
    (compareFlags clears 0#8 x y).getLsbD 1 = (compareFlags clears 0#8 y x).getLsbD 2 ∧
    (compareFlags clears 0#8 x y).getLsbD 2 = (compareFlags clears 0#8 y x).getLsbD 1 := by
  obtain hlt | heq | hgt := Nat.lt_trichotomy x.toNat y.toNat
  · rw [compareFlags_eq_or clears 0#8 (.inr (.inr ⟨hlt, rfl⟩)), compareFlags_eq_or clears 0#8 (.inr (.inl ⟨hlt, rfl⟩))]
    cases clears <;> decide
  · rw [compareFlags_eq_or clears 0#8 (.inl ⟨heq, rfl⟩), compareFlags_eq_or clears 0#8 (.inl ⟨heq.symm, rfl⟩)]
    cases clears <;> decide
  · rw [compareFlags_eq_or clears 0#8 (.inr (.inl ⟨hgt, rfl⟩)), compareFlags_eq_or clears 0#8 (.inr (.inr ⟨hgt, rfl⟩))]
    cases clears <;> decide

/-- An instruction on two registers completes with its operands in either order, when both are legal (R53). -/
theorem exists_both_orders {mk : Byte → Byte → Instr} (s : State) {a b : Byte} (ha : a.toNat < 8) (hb : b.toNat < 8)
    (hw : ∀ x y, (mk x y).WellFormed = (legalRegister x && legalRegister y)) (hcall : ∀ x y r, mk x y ≠ .call r)
    {P : State → State → Prop} (hP : ∀ t u, Completes s t (mk a b) → Completes s u (mk b a) → P t u) :
    ∃ t u, exec (mk a b) s = .next t ∧ exec (mk b a) s = .next u ∧ P t u := by
  obtain ⟨t, ht⟩ := exists_completes (i := mk a b) (by simp [hw, legalRegister, ha, hb]) s
    fun r e => absurd e (hcall a b r)
  obtain ⟨u, hu⟩ := exists_completes (i := mk b a) (by simp [hw, legalRegister, ha, hb]) s
    fun r e => absurd e (hcall b a r)
  exact ⟨t, u, exec_of_completes ht, exec_of_completes hu, hP t u ht hu⟩

/-- Settles O51. In either order the instruction completes (`exists_both_orders`); the results agree by commutativity of the
arithmetic, and the flags by `compareFlags_swap`. -/
theorem operandOrder : Obligations.OperandOrder := by
  intro a b s ha hb
  refine ⟨exists_both_orders (mk := .add) s ha hb (fun _ _ => rfl) nofun fun t u ht hu => ?_,
    exists_both_orders (mk := .mul) s ha hb (fun _ _ => rfl) nofun fun t u ht hu => ?_,
    fun hfl => exists_both_orders (mk := .cmp) s ha hb (fun _ _ => rfl) nofun fun t u ht hu => ?_⟩
  · rw [ht.result_of_add ha hb, hu.result_of_add hb ha, Nat.add_comm]
  · rw [ht.result_of_mul ha hb, hu.result_of_mul hb ha, Nat.mul_comm]
  · rw [ht.fl_eq_of_cmp ha hb, hu.fl_eq_of_cmp hb ha, hfl]
    exact compareFlags_swap _ _ _

/-- A PC with the value of a byte is that byte, zero-extended (R94a). -/
theorem pc_eq_setWidth {pc : PcWord} {v : Byte} (h : pc.toNat = v.toNat) : pc = v.setWidth 9 := by
  apply BitVec.eq_of_toNat_eq
  rw [h, BitVec.toNat_setWidth_of_le (by decide)]

/-- Settles O52. Both complete, and the one bit E decides where each goes. -/
theorem exactlyOneBranchTaken : Obligations.ExactlyOneBranchTaken := by
  intro a s ha
  obtain ⟨t, ht⟩ := exists_completes (i := .jeq a) (decide_eq_true ha) s nofun
  obtain ⟨u, hu⟩ := exists_completes (i := .jne a) (decide_eq_true ha) s nofun
  refine ⟨t, u, exec_of_completes ht, exec_of_completes hu, ?_⟩
  have htpc := ht.pc_of_jeq ha
  have hupc := hu.pc_of_jne ha
  cases hE : flagE s.fl with
  | true =>
    rw [hE, if_pos rfl] at htpc hupc
    exact .inl ⟨hE, pc_eq_setWidth htpc, hupc⟩
  | false =>
    rw [hE, if_neg Bool.false_ne_true] at htpc hupc
    exact .inr ⟨hE, htpc, pc_eq_setWidth hupc⟩

end Sys2Proof.Machine
